-- ==== Sys2Proof/Word.lean ====
section
/-! DEFINITION. The bit-vector types the spec's fields and registers have (00_scope.md R9, R11, R12). -/

namespace Sys2Proof

/-- A memory byte, a general register, a timer or an immediate `nn` (R9 `V_WIDTH`, `TIMER_WIDTH`). -/
abbrev Byte := BitVec 8

/-- An instruction word, the program counter, the index register or a stack entry (R9). -/
abbrev Word := BitVec 16

/-- A register field `x`, `y`, the field `n`, or a key index: 4 bits (R71). -/
abbrev Nibble := BitVec 4

/-- The immediate address `nnn`: 12 bits, never truncated (R71, R72). -/
abbrev Addr12 := BitVec 12

end Sys2Proof
end

