-- ==== Sys2Proof/Machine/Flags.lean ====
section
/-! DEFINITION. The flag computations (10_state.md R23): each gives the byte 0 or 1 written to VF, from the
operand values read at the start of the instruction (R22). -/

namespace Sys2Proof.Machine

/-- A flag value as the byte 0 or 1. -/
def flagByte (b : Bool) : Byte := if b then 1 else 0

/-- The carry of `a + b`: 1 when the exact sum exceeds 255 (R137). -/
def carryFlag (a b : Byte) : Byte := flagByte (decide (a.toNat + b.toNat > 255))

/-- The no-borrow flag of `a - b`: 1 when `a >= b` (R138, R140). -/
def noBorrowFlag (a b : Byte) : Byte := flagByte (decide (a.toNat ≥ b.toNat))

/-- The bit a right shift moves out: `b AND 0x01` (R139). -/
def shiftedOutRight (b : Byte) : Byte := b &&& 0x01

/-- The bit a left shift moves out: `(b AND 0x80) >> 7` (R141). -/
def shiftedOutLeft (b : Byte) : Byte := (b &&& 0x80) >>> 7

end Sys2Proof.Machine
end

