-- ==== Sys2Proof/Syntax.lean ====
section
/-! DEFINITION. The structured instruction (30_encoding.md R80): one constructor per row of
spec/opcode_table.json. `Return` is `ret` here, since `return` is a word of Lean. -/

namespace Sys2Proof

/-- The decoder's output (R80). The operand types are R80's ranges: `x, y, n : 0..15`, `nn : 0..255`,
`nnn : 0..4095`. -/
inductive Instr where
  /-- `00E0` -/
  | clear
  /-- `00EE` -/
  | ret
  /-- `1NNN` -/
  | jump (nnn : Addr12)
  /-- `2NNN` -/
  | call (nnn : Addr12)
  /-- `3XNN` -/
  | skipEqImm (x : Nibble) (nn : Byte)
  /-- `4XNN` -/
  | skipNeImm (x : Nibble) (nn : Byte)
  /-- `5XY0` -/
  | skipEqReg (x y : Nibble)
  /-- `6XNN` -/
  | setImm (x : Nibble) (nn : Byte)
  /-- `7XNN` -/
  | addImm (x : Nibble) (nn : Byte)
  /-- `8XY0` -/
  | assign (x y : Nibble)
  /-- `8XY1` -/
  | or (x y : Nibble)
  /-- `8XY2` -/
  | and (x y : Nibble)
  /-- `8XY3` -/
  | xor (x y : Nibble)
  /-- `8XY4` -/
  | add (x y : Nibble)
  /-- `8XY5` -/
  | sub (x y : Nibble)
  /-- `8XY6` -/
  | shiftRight (x y : Nibble)
  /-- `8XY7` -/
  | reverseSub (x y : Nibble)
  /-- `8XYE` -/
  | shiftLeft (x y : Nibble)
  /-- `9XY0` -/
  | skipNeReg (x y : Nibble)
  /-- `ANNN` -/
  | storeNnnInI (nnn : Addr12)
  /-- `BNNN` -/
  | jumpAddV0 (nnn : Addr12)
  /-- `CXNN` -/
  | random (x : Nibble) (nn : Byte)
  /-- `DXYN` -/
  | drawSprite (x y n : Nibble)
  /-- `EX9E` -/
  | skipIfKeyDown (x : Nibble)
  /-- `EXA1` -/
  | skipIfKeyNotDown (x : Nibble)
  /-- `FX07` -/
  | loadDelay (x : Nibble)
  /-- `FX0A` -/
  | waitKeyDownStore (x : Nibble)
  /-- `FX15` -/
  | setDelay (x : Nibble)
  /-- `FX18` -/
  | setSound (x : Nibble)
  /-- `FX1E` -/
  | addToI (x : Nibble)
  /-- `FX29` -/
  | loadFontAddr (x : Nibble)
  /-- `FX33` -/
  | storeBCD (x : Nibble)
  /-- `FX55` -/
  | copyRegisters (x : Nibble)
  /-- `FX65` -/
  | fillRegisters (x : Nibble)
  deriving DecidableEq, Repr

end Sys2Proof
end

