-- ==== Sys2Proof/WellFormed.lean ====
section
/-! DEFINITION. Which instructions and which words are legal: the operand ranges of R80 and the opcode map of
R81, as data. -/

namespace Sys2Proof

/-- The operand ranges of R80. The operand types already hold every value to its range, so the check passes on
every term (R84: the decoder checks no other field); what can be ill-formed is a word, see `legalWord`. -/
def Instr.wf : Instr → Bool
  | .clear | .ret => true
  | .jump nnn | .call nnn | .storeNnnInI nnn | .jumpAddV0 nnn => nnn.toNat ≤ 4095
  | .skipEqImm x nn | .skipNeImm x nn | .setImm x nn | .addImm x nn | .random x nn =>
      x.toNat ≤ 15 && nn.toNat ≤ 255
  | .skipEqReg x y | .skipNeReg x y | .assign x y | .or x y | .and x y | .xor x y | .add x y | .sub x y
  | .shiftRight x y | .reverseSub x y | .shiftLeft x y => x.toNat ≤ 15 && y.toNat ≤ 15
  | .drawSprite x y n => x.toNat ≤ 15 && y.toNat ≤ 15 && n.toNat ≤ 15
  | .skipIfKeyDown x | .skipIfKeyNotDown x | .loadDelay x | .waitKeyDownStore x | .setDelay x | .setSound x
  | .addToI x | .loadFontAddr x | .storeBCD x | .copyRegisters x | .fillRegisters x => x.toNat ≤ 15

/-- One row of R81: the word `w` selects it when `w AND mask = value`. -/
structure OpcodeRow where
  mask : Word
  value : Word
  deriving DecidableEq, Repr

/-- Whether the word selects the row (R81). -/
def OpcodeRow.selects (r : OpcodeRow) (w : Word) : Bool := w &&& r.mask == r.value

/-- The complete map of R81, in its order. -/
def opcodeTable : List OpcodeRow :=
  [⟨0xFFFF, 0x00E0⟩, ⟨0xFFFF, 0x00EE⟩, ⟨0xF000, 0x1000⟩, ⟨0xF000, 0x2000⟩, ⟨0xF000, 0x3000⟩, ⟨0xF000, 0x4000⟩,
   ⟨0xF00F, 0x5000⟩, ⟨0xF000, 0x6000⟩, ⟨0xF000, 0x7000⟩] ++
  [⟨0xF00F, 0x8000⟩, ⟨0xF00F, 0x8001⟩, ⟨0xF00F, 0x8002⟩, ⟨0xF00F, 0x8003⟩, ⟨0xF00F, 0x8004⟩, ⟨0xF00F, 0x8005⟩,
   ⟨0xF00F, 0x8006⟩, ⟨0xF00F, 0x8007⟩, ⟨0xF00F, 0x800E⟩, ⟨0xF00F, 0x9000⟩] ++
  [⟨0xF000, 0xA000⟩, ⟨0xF000, 0xB000⟩, ⟨0xF000, 0xC000⟩, ⟨0xF000, 0xD000⟩, ⟨0xF0FF, 0xE09E⟩, ⟨0xF0FF, 0xE0A1⟩] ++
  [⟨0xF0FF, 0xF007⟩, ⟨0xF0FF, 0xF00A⟩, ⟨0xF0FF, 0xF015⟩, ⟨0xF0FF, 0xF018⟩, ⟨0xF0FF, 0xF01E⟩, ⟨0xF0FF, 0xF029⟩,
   ⟨0xF0FF, 0xF033⟩, ⟨0xF0FF, 0xF055⟩, ⟨0xF0FF, 0xF065⟩]

/-- A word is legal when it selects a row of R81; every other word is illegal (R83). -/
def legalWord (w : Word) : Bool := opcodeTable.any (·.selects w)

end Sys2Proof
end

