-- ==== Sys2Proof/Decode.lean ====
section
/-! DEFINITION. The decoder (R74, R75), total on any bytes, and the encoder (R86), with the table-numbered form
the host asks for. -/

namespace Sys2Proof

/-- Why bytes do not decode: the classes of illegal words of R83, and too few bytes for a word. -/
inductive DecodeReject where
  /-- `0NNN` other than `00E0`, `00EE` (R76). -/
  | group0
  /-- `5XYn` with `n /= 0`, under `Strict59` (R82). -/
  | group5
  /-- `8XYn` with `n` in 8, 9, A, B, C, D, F (R77). -/
  | group8
  /-- `9XYn` with `n /= 0`, under `Strict59` (R82). -/
  | group9
  /-- `EXkk` with `kk` not `9E`, `A1` (R78). -/
  | groupE
  /-- `FXkk` with `kk` not one of R79's nine. -/
  | groupF
  /-- Fewer than two bytes: no word (R70). -/
  | truncated
  deriving DecidableEq, Repr

/-- The top nibble `t`, bits 15:12 (R71). -/
def fieldT (w : Word) : Nibble := w.extractLsb' 12 4

/-- The field `x`, bits 11:8 (R71). -/
def fieldX (w : Word) : Nibble := w.extractLsb' 8 4

/-- The field `y`, bits 7:4 (R71). -/
def fieldY (w : Word) : Nibble := w.extractLsb' 4 4

/-- The field `n`, bits 3:0 (R71). -/
def fieldN (w : Word) : Nibble := w.extractLsb' 0 4

/-- The field `nn`, bits 7:0 (R71). -/
def fieldNN (w : Word) : Byte := w.extractLsb' 0 8

/-- The field `nnn`, bits 11:0 (R71, R72). -/
def fieldNNN (w : Word) : Addr12 := w.extractLsb' 0 12

/-- Group `0x0`: only `00E0` and `00EE` decode (R76). -/
def decodeGroup0 (w : Word) : Except DecodeReject Instr :=
  if w = 0x00E0#16 then .ok .clear else if w = 0x00EE#16 then .ok .ret else .error .group0

/-- Group `0x8`: the low nibble selects the operation (R77). -/
def decodeGroup8 (w : Word) : Except DecodeReject Instr :=
  match fieldN w with
  | 0x0#4 => .ok (.assign (fieldX w) (fieldY w))
  | 0x1#4 => .ok (.or (fieldX w) (fieldY w))
  | 0x2#4 => .ok (.and (fieldX w) (fieldY w))
  | 0x3#4 => .ok (.xor (fieldX w) (fieldY w))
  | 0x4#4 => .ok (.add (fieldX w) (fieldY w))
  | 0x5#4 => .ok (.sub (fieldX w) (fieldY w))
  | 0x6#4 => .ok (.shiftRight (fieldX w) (fieldY w))
  | 0x7#4 => .ok (.reverseSub (fieldX w) (fieldY w))
  | 0xE#4 => .ok (.shiftLeft (fieldX w) (fieldY w))
  | _ => .error .group8

/-- Group `0xE`: the low byte selects the key skip (R78). -/
def decodeGroupE (w : Word) : Except DecodeReject Instr :=
  match fieldNN w with
  | 0x9E#8 => .ok (.skipIfKeyDown (fieldX w))
  | 0xA1#8 => .ok (.skipIfKeyNotDown (fieldX w))
  | _ => .error .groupE

/-- Group `0xF`: the low byte selects the operation (R79). -/
def decodeGroupF (w : Word) : Except DecodeReject Instr :=
  match fieldNN w with
  | 0x07#8 => .ok (.loadDelay (fieldX w))
  | 0x0A#8 => .ok (.waitKeyDownStore (fieldX w))
  | 0x15#8 => .ok (.setDelay (fieldX w))
  | 0x18#8 => .ok (.setSound (fieldX w))
  | 0x1E#8 => .ok (.addToI (fieldX w))
  | 0x29#8 => .ok (.loadFontAddr (fieldX w))
  | 0x33#8 => .ok (.storeBCD (fieldX w))
  | 0x55#8 => .ok (.copyRegisters (fieldX w))
  | 0x65#8 => .ok (.fillRegisters (fieldX w))
  | _ => .error .groupF

/-- `Decode` (R75): total, pure, stateless (R74). `strict` is the parameter `Strict59` (R82): with it, groups
`0x5` and `0x9` decode only when the low nibble is 0. -/
def decode (strict : Bool) (w : Word) : Except DecodeReject Instr :=
  match fieldT w with
  | 0x0#4 => decodeGroup0 w
  | 0x1#4 => .ok (.jump (fieldNNN w))
  | 0x2#4 => .ok (.call (fieldNNN w))
  | 0x3#4 => .ok (.skipEqImm (fieldX w) (fieldNN w))
  | 0x4#4 => .ok (.skipNeImm (fieldX w) (fieldNN w))
  | 0x5#4 => if strict && fieldN w != 0#4 then .error .group5 else .ok (.skipEqReg (fieldX w) (fieldY w))
  | 0x6#4 => .ok (.setImm (fieldX w) (fieldNN w))
  | 0x7#4 => .ok (.addImm (fieldX w) (fieldNN w))
  | 0x8#4 => decodeGroup8 w
  | 0x9#4 => if strict && fieldN w != 0#4 then .error .group9 else .ok (.skipNeReg (fieldX w) (fieldY w))
  | 0xA#4 => .ok (.storeNnnInI (fieldNNN w))
  | 0xB#4 => .ok (.jumpAddV0 (fieldNNN w))
  | 0xC#4 => .ok (.random (fieldX w) (fieldNN w))
  | 0xD#4 => .ok (.drawSprite (fieldX w) (fieldY w) (fieldN w))
  | 0xE#4 => decodeGroupE w
  | _ => decodeGroupF w

/-- A word from its two bytes, the byte at the lower address first: big-endian (R54).
PRESUMED by the spec (D1; notes/assumptions/17.md). -/
def wordOfBytes (hi lo : Byte) : Word := hi ++ lo

/-- The two bytes of a word in the order they lie in memory (R54). -/
def bytesOfWord (w : Word) : Byte × Byte := (w.extractLsb' 8 8, w.extractLsb' 0 8)

/-- Decoding a byte stream: the first instruction and the bytes after it, or the reason there is none. Every
instruction is two bytes (R70, R85). -/
def decodeBytes (strict : Bool) : List Byte → Except DecodeReject (Instr × List Byte)
  | hi :: lo :: rest =>
    match decode strict (wordOfBytes hi lo) with
    | .ok i => .ok (i, rest)
    | .error e => .error e
  | _ => .error .truncated

/-- The layout `t nnn` (R71). -/
def wordNNN (t : Nibble) (nnn : Addr12) : Word := t ++ nnn

/-- The layout `t x nn` (R71). -/
def wordXNN (t x : Nibble) (nn : Byte) : Word := t ++ (x ++ nn)

/-- The layout `t x y n` (R71). -/
def wordXYN (t x y n : Nibble) : Word := t ++ (x ++ (y ++ n))

/-- `Encode` (R86): the constructor's fixed bits from R81's match column and its operands at R71's positions. -/
def encode : Instr → Word
  | .clear => 0x00E0#16
  | .ret => 0x00EE#16
  | .jump nnn => wordNNN 0x1#4 nnn
  | .call nnn => wordNNN 0x2#4 nnn
  | .skipEqImm x nn => wordXNN 0x3#4 x nn
  | .skipNeImm x nn => wordXNN 0x4#4 x nn
  | .skipEqReg x y => wordXYN 0x5#4 x y 0x0#4
  | .setImm x nn => wordXNN 0x6#4 x nn
  | .addImm x nn => wordXNN 0x7#4 x nn
  | .assign x y => wordXYN 0x8#4 x y 0x0#4
  | .or x y => wordXYN 0x8#4 x y 0x1#4
  | .and x y => wordXYN 0x8#4 x y 0x2#4
  | .xor x y => wordXYN 0x8#4 x y 0x3#4
  | .add x y => wordXYN 0x8#4 x y 0x4#4
  | .sub x y => wordXYN 0x8#4 x y 0x5#4
  | .shiftRight x y => wordXYN 0x8#4 x y 0x6#4
  | .reverseSub x y => wordXYN 0x8#4 x y 0x7#4
  | .shiftLeft x y => wordXYN 0x8#4 x y 0xE#4
  | .skipNeReg x y => wordXYN 0x9#4 x y 0x0#4
  | .storeNnnInI nnn => wordNNN 0xA#4 nnn
  | .jumpAddV0 nnn => wordNNN 0xB#4 nnn
  | .random x nn => wordXNN 0xC#4 x nn
  | .drawSprite x y n => wordXYN 0xD#4 x y n
  | .skipIfKeyDown x => wordXNN 0xE#4 x 0x9E#8
  | .skipIfKeyNotDown x => wordXNN 0xE#4 x 0xA1#8
  | .loadDelay x => wordXNN 0xF#4 x 0x07#8
  | .waitKeyDownStore x => wordXNN 0xF#4 x 0x0A#8
  | .setDelay x => wordXNN 0xF#4 x 0x15#8
  | .setSound x => wordXNN 0xF#4 x 0x18#8
  | .addToI x => wordXNN 0xF#4 x 0x1E#8
  | .loadFontAddr x => wordXNN 0xF#4 x 0x29#8
  | .storeBCD x => wordXNN 0xF#4 x 0x33#8
  | .copyRegisters x => wordXNN 0xF#4 x 0x55#8
  | .fillRegisters x => wordXNN 0xF#4 x 0x65#8

/-- The word of a row of spec/opcode_table.json: bit 0 is the least significant bit of the one 16-bit word, and
every bit from `nbits` up is 0. -/
def tableWord (nbits w : Nat) : Word := BitVec.ofNat 16 (w % 2 ^ nbits)

/-- What the decoder, with the spec's decided `Strict59 = true`, reads from the bytes of a table word as they
lie in memory. -/
def decodeTableWord (nbits w : Nat) : Option Instr :=
  let bytes := bytesOfWord (tableWord nbits w)
  match decodeBytes true [bytes.1, bytes.2] with
  | .ok (i, _) => some i
  | .error _ => none

end Sys2Proof
end

