-- ==== Sys2Proof/Config.lean ====
section
/-! DEFINITION. What the spec fixes for the machine (R9), the parameters it leaves open with a decided value
(R10), and the free values: the random bytes (R33) and the host's schedule (R263). -/

namespace Sys2Proof

/-- The parameters a step consults (R10). The spec makes each a named argument of the model and gives a decided
value; the model carries them in `State.cfg`, which no step changes, so that a statement about every state is a
statement about every value of them (notes/assumptions/7.md). -/
structure Config where
  /-- Whether fetch at an odd `pc` raises (D2, R60). -/
  faultOnOddPC : Bool
  /-- Whether `5XYn` and `9XYn` with `n /= 0` are decode failures (D3, R82). -/
  strict59 : Bool
  /-- Stores whose base address lies below this raise (D5, R58). -/
  writeProtectLimit : Nat
  deriving DecidableEq, Repr

/-- The values the spec decides for R10's parameters. DESIGN CHOICE (the spec's D2, D3, D5). -/
def Config.decided : Config :=
  { faultOnOddPC := false, strict59 := true, writeProtectLimit := 0x200 }

/-- The parameters of the reset sequence (R10, R35): `InitV`, `InitI`, `InitDelay`, `InitSound`, `InitFB`,
`InitMemFill` and `FontGlyphs`. The framebuffer is 32 rows of 64 pixels, pixel `px` of a row its bit `px`; the font
is 16 glyphs of 5 bytes, in glyph order (R9, R52). -/
structure InitValues where
  v : Vector Byte 16
  i : Word
  delay : Byte
  sound : Byte
  fb : Vector (BitVec 64) 32
  memFill : Byte
  font : Vector Byte 80
  deriving DecidableEq, Repr

/-- `MEM_SIZE` (R9). -/
def Config.memSize : Nat := 0x1000

/-- `PROGRAM_BASE`, the reset vector (R9, R282). -/
def Config.programBase : Nat := 0x200

/-- `MAX_PROGRAM` (R9). -/
def Config.maxProgram : Nat := 0xE00

/-- The random bytes of the steps: `Config.rnd k` is the byte the `k`-th `Random` instruction draws. A FREE VALUE
(R33, D12): it has no definition that a proof can see, and obeys no law (notes/assumptions/6.md). -/
opaque Config.rnd : Nat → Byte

/-- What the host lets happen next (60_exceptions.md R260). Load is not among them: it happens once, before any
step, and makes the state a run begins in (`State.boot`; notes/assumptions/12.md). -/
inductive Turn where
  /-- One CoreStep. -/
  | core
  /-- The 60 Hz timer tick. -/
  | tick
  /-- Key `k` goes from released to pressed. -/
  | keyPress (k : Nibble)
  /-- Key `k` is released. -/
  | keyRelease (k : Nibble)
  /-- The host aborts the run. -/
  | abort
  deriving DecidableEq, Repr, Inhabited

/-- The host's schedule: `Config.schedule k` is the `k`-th turn the host lets happen once the turns it has named are
over. A FREE VALUE (R263, D17, D29): it has no definition that a proof can see, so it is any interleaving of the
actions of R260 without end, whatever their rates (notes/assumptions/8.md). -/
opaque Config.schedule : Nat → Turn

end Sys2Proof
end

