-- ==== Sys2Proof/Machine/State.lean ====
section
/-! DEFINITION. The state of the core (10_state.md R20), the inputs of its steps (R20, R32, R33), its error
record (R31) and the state after reset (R35). -/

namespace Sys2Proof.Machine

/-- The error kinds (60_exceptions.md R240), in the spec's order, codes 0 to 4. -/
inductive ErrorKind where
  | decodeFailure
  | stackOverflow
  | stackUnderflow
  | outOfBoundsAccess
  | programTooLarge
  deriving DecidableEq, Repr

/-- The error record (R31): `pc` is the address of the failing instruction or fetch, `word` the fetched word. -/
structure ErrorRecord where
  kind : ErrorKind
  pc : Option Word
  word : Option Word
  deriving DecidableEq, Repr

/-- The executor's state machine (R30). -/
inductive Status where
  /-- The core may take a step. -/
  | running
  /-- A `WaitKeyDownStore` waits for the key press that will be stored in `Vx`. -/
  | waitKey (x : Nibble)
  /-- A fatal error occurred; terminal. -/
  | halted (e : ErrorRecord)
  /-- The host aborted the run; terminal. -/
  | stopped
  deriving DecidableEq, Repr

/-- Memory: the bytes that differ from what an unlisted address reads as, at strictly rising addresses
(`Memory.wf`). -/
abbrev Memory := List Host.Cell

/-- The framebuffer: 32 rows of 64 pixels, pixel `(px, py)` the bit `px` of row `py` (R29; read through
`Framebuffer.pixel`). -/
abbrev Framebuffer := Vector (BitVec 64) 32

/-- The machine's state. The first ten fields are R20's tuple; the others are the inputs of a step (R20,
R32, R33) and the host's schedule (R263), held here because a step is a function of the state alone. -/
structure State where
  /-- 4096 bytes (R50). -/
  mem : Memory
  /-- `V0` to `VF` (R21). -/
  v : Vector Byte 16
  /-- The index register `I` (R24). -/
  i : Word
  /-- The program counter (R25). -/
  pc : Word
  /-- The call-stack slots `S[0]` to `S[15]` (R26). -/
  slots : Vector Word 16
  /-- The call-stack depth, 0 to 16 (R26, R27). -/
  sp : Fin 17
  /-- The delay timer (R28). -/
  delay : Byte
  /-- The sound timer (R28). -/
  sound : Byte
  /-- The framebuffer (R29). -/
  fb : Framebuffer
  /-- The executor status, with the error record and the waiting register (R30, R31). -/
  status : Status
  /-- The host's keypad view: `keys[k]` is true while key `k` is pressed (R32). -/
  keys : Vector Bool 16
  /-- The model's own: how many random bytes have been drawn (R33; notes/assumptions/6.md). -/
  draws : Nat
  /-- The model's own: the turns the host has already named, first to last. After them the schedule is the free
  one (R263; notes/assumptions/8.md). -/
  turns : List Turn
  /-- The model's own: how many turns of the free schedule have been taken; the next is
  `Config.schedule turnsDrawn` (R263; notes/assumptions/8.md). -/
  turnsDrawn : Nat
  /-- The parameters a step consults (R10; notes/assumptions/7.md). -/
  cfg : Config
  deriving DecidableEq, Repr

/-- Why a step can end the run. -/
inductive Fault where
  /-- Raised by a scheduled CoreStep in `Halted`: the core never steps again (R100, R246, R265). Safe. -/
  | coreHalted (e : ErrorRecord)
  /-- Raised by a scheduled CoreStep in `Stopped`: the core never steps again (R100, R266). Safe. -/
  | coreStopped
  deriving DecidableEq, Repr

/-- Why an instruction can have no meaning. -/
inductive Refusal where
  /-- Raised by `exec` for an instruction that has no meaning yet; no arm of this model raises it. Safe. -/
  | notModelled (mnemonic : String)
  deriving DecidableEq, Repr

/-- The state after reset (R35): the reset sequence of R280 with a program of no bytes, at the spec's decided values
of the parameters (R10). Memory reads as the font and the fill with nothing listed; the registers, timers and
pixels are 0 (DESIGN CHOICE, unsafe: the spec's D7, D9; notes/assumptions/1.md), `pc` is the reset vector, the
stack is empty, the core runs, every key is up, nothing is drawn and the host has named no turn. `State.boot` is the
sequence itself, for every value of the parameters. -/
def State.reset : State :=
  { mem := []
    v := Vector.replicate 16 0
    i := 0
    pc := 0x200
    slots := Vector.replicate 16 0
    sp := 0
    delay := 0
    sound := 0
    fb := Vector.replicate 32 0
    status := .running
    keys := Vector.replicate 16 false
    draws := 0
    turns := []
    turnsDrawn := 0
    cfg := Config.decided }

end Sys2Proof.Machine
end

