-- ==== Sys2Proof/Machine/Memory.lean ====
section
/-! DEFINITION. Memory (20_memory.md): what it holds after reset, reading and writing a byte, the range checks,
and moving blocks of bytes. -/

namespace Sys2Proof.Machine

/-- The decided value of `FontGlyphs`: the 80 font bytes, five to a glyph, in glyph order 0 to F (R52, R53).
PRESUMED by the spec, unsafe (D11; notes/assumptions/3.md). -/
def fontGlyphs : List Byte :=
  [0xF0, 0x90, 0x90, 0x90, 0xF0,  0x20, 0x60, 0x20, 0x20, 0x70,
   0xF0, 0x10, 0xF0, 0x80, 0xF0,  0xF0, 0x10, 0xF0, 0x10, 0xF0] ++
  [0x90, 0x90, 0xF0, 0x10, 0x10,  0xF0, 0x80, 0xF0, 0x10, 0xF0,
   0xF0, 0x80, 0xF0, 0x90, 0xF0,  0xF0, 0x10, 0x20, 0x40, 0x40] ++
  [0xF0, 0x90, 0xF0, 0x90, 0xF0,  0xF0, 0x90, 0xF0, 0x10, 0xF0,
   0xF0, 0x90, 0xF0, 0x90, 0x90,  0xE0, 0x90, 0xE0, 0x90, 0xE0] ++
  [0xF0, 0x80, 0x80, 0x80, 0xF0,  0xE0, 0x90, 0x90, 0x90, 0xE0,
   0xF0, 0x80, 0xF0, 0x80, 0xF0,  0xF0, 0x80, 0xF0, 0x80, 0x80]

/-- `FONT_BASE` (R9). -/
def fontBase : Nat := 0x000

/-- The decided value of `InitMemFill`: a byte that neither the font nor the program wrote (R35).
DESIGN CHOICE, unsafe (the spec's D8; notes/assumptions/2.md). -/
def initMemFill : Byte := 0x00

/-- What an address that the list does not name reads as: its reset contents at the decided parameters before a
program is loaded (R35), the font at `0x000`-`0x04F` and the fill elsewhere. Other values of the parameters are
listed bytes, which the reset sequence writes (`State.boot`). -/
def Memory.unlisted (a : Nat) : Byte := (fontGlyphs[a]?).getD initMemFill

/-- The byte at address `a` (R50). -/
def Memory.read (m : Memory) (a : Nat) : Byte :=
  match m with
  | [] => Memory.unlisted a
  | c :: rest => if c.1 = a then c.2 else Memory.read rest a

/-- Lists `b` at address `a`, in its place in the rising order. -/
def Memory.insert (m : Memory) (a : Nat) (b : Byte) : Memory :=
  match m with
  | [] => [(a, b)]
  | c :: rest =>
    if a < c.1 then (a, b) :: c :: rest
    else if a = c.1 then (a, b) :: rest
    else c :: Memory.insert rest a b

/-- Makes address `a` unlisted. -/
def Memory.erase (m : Memory) (a : Nat) : Memory := m.filter (fun c => c.1 != a)

/-- Writes `b` to address `a` (R56: exactly the byte it names), keeping the canonical form. -/
def Memory.write (m : Memory) (a : Nat) (b : Byte) : Memory :=
  if b = Memory.unlisted a then Memory.erase m a else Memory.insert m a b

/-- The canonical form: addresses strictly rising and inside the address space, and no byte listed that the
address would read as unlisted. -/
abbrev Memory.wf (m : Memory) : Prop :=
  m.Pairwise (fun c d => c.1 < d.1) ∧ ∀ c ∈ m, c.1 < Config.memSize ∧ c.2 ≠ Memory.unlisted c.1

/-- Writes the bytes one after the other from address `a` on, in order (R61). -/
def Memory.writeBytes (m : Memory) (a : Nat) : List Byte → Memory
  | [] => m
  | b :: rest => Memory.writeBytes (m.write a b) (a + 1) rest

/-- Memory with every byte of the address space `b` (R280). -/
def Memory.filled (b : Byte) : Memory := Memory.writeBytes [] 0 (List.replicate Config.memSize b)

/-- `CheckRead` (R57): whether an access of `n` bytes at `addr` raises. Exact integers: nothing wraps. -/
def checkReadFails (addr n : Nat) : Bool := decide (1 ≤ n ∧ addr + n - 1 > 0xFFF)

/-- `CheckWrite` (R58): whether a store of `n` bytes at `addr` raises; `limit` is `WriteProtectLimit`. -/
def checkWriteFails (limit addr n : Nat) : Bool :=
  decide (1 ≤ n ∧ (addr + n - 1 > 0xFFF ∨ addr < limit))

end Sys2Proof.Machine
end

