-- ==== Sys2Proof/Machine/Ops.lean ====
section
/-! DEFINITION. The named operations over the registers, memory, the stack and the status, and raising a fatal
error (60_exceptions.md R244). -/

namespace Sys2Proof.Machine

/-- What a meaning answers. -/
abbrev Out := Host.Outcome State Fault Refusal

/-- `V[x]` (R13, R21). -/
def State.reg (s : State) (x : Nibble) : Byte := s.v[x.toNat]'x.isLt

/-- `V[x] <- b` (R13, R21). -/
def State.setReg (s : State) (x : Nibble) (b : Byte) : State := { s with v := s.v.set x.toNat b x.isLt }

/-- `VF`, register 15, the flags register (R22). -/
def regVF : Nibble := 0xF

/-- `V[x] <- result`, then `VF <- flag`: the flag is written last and wins when `x = 15` (R14, R22, R130). -/
def State.setRegFlag (s : State) (x : Nibble) (result flag : Byte) : State := (s.setReg x result).setReg regVF flag

/-- `I <- w` (R13, R24): the register holds all 16 bits. -/
def State.setI (s : State) (w : Word) : State := { s with i := w }

/-- `pc <- w` (R13). -/
def State.setPc (s : State) (w : Word) : State := { s with pc := w }

/-- Fetch's advance, from the instruction's address `A` to `A + 2` (R101, R104). -/
def State.advance (s : State) : State := { s with pc := s.pc + 2 }

/-- A skip taken: past the instruction and past the word after it (R110). -/
def State.advanceSkip (s : State) : State := { s with pc := s.pc + 2 + 2 }

/-- Advance, and skip when the condition holds (R110). -/
def State.skipIf (s : State) (cond : Bool) : State := if cond then s.advanceSkip else s.advance

/-- The byte at address `a`. -/
def State.readByte (s : State) (a : Nat) : Byte := s.mem.read a

/-- Stores the bytes from address `a` on (R55: single-byte writes, in order). -/
def State.storeBytes (s : State) (a : Nat) (bytes : List Byte) : State := { s with mem := s.mem.writeBytes a bytes }

/-- The word at address `a`: the byte there and the one after it, big-endian (R54). -/
def State.wordAt (s : State) (a : Nat) : Word := wordOfBytes (s.readByte a) (s.readByte (a + 1))

/-- `V0` to `Vx` (R185). -/
def State.regsUpTo (s : State) (x : Nibble) : List Byte := s.v.toList.take (x.toNat + 1)

/-- `V[i] <- mem[a + i]` for `i` in `0..x` (R186). -/
def State.loadRegs (s : State) (x : Nibble) (a : Nat) : State :=
  { s with v := Vector.ofFn fun k : Fin 16 => if k.val ≤ x.toNat then s.readByte (a + k.val) else s.v[k.val] }

/-- `S[sp] <- w; sp <- sp + 1` (R26), for a stack that is not full. -/
def State.push (s : State) (w : Word) (room : s.sp.val < 16) : State :=
  { s with slots := s.slots.set s.sp.val w room, sp := ⟨s.sp.val + 1, Nat.succ_lt_succ room⟩ }

/-- `sp <- sp - 1; pc <- S[sp]` (R108), for a stack whose depth is `k + 1`. -/
def State.popPc (s : State) (k : Nat) (room : k < 16) : State :=
  { s with sp := ⟨k, Nat.lt_succ_of_lt room⟩, pc := s.slots[k] }

/-- `delay <- b`. -/
def State.setDelay (s : State) (b : Byte) : State := { s with delay := b }

/-- `sound <- b`. -/
def State.setSound (s : State) (b : Byte) : State := { s with sound := b }

/-- Replaces the framebuffer. -/
def State.setFb (s : State) (fb : Framebuffer) : State := { s with fb := fb }

/-- `status <- st`. -/
def State.setStatus (s : State) (st : Status) : State := { s with status := st }

/-- The random byte of this step (R33): a free value. -/
def State.rnd (s : State) : Byte := Config.rnd s.draws

/-- The random byte has been drawn: the next draw is another free value. -/
def State.drawn (s : State) : State := { s with draws := s.draws + 1 }

/-- The number of an error kind (R240). No behaviour depends on it.
DESIGN CHOICE (the spec's D14; notes/assumptions/31.md). -/
def ErrorKind.code : ErrorKind → Nat
  | .decodeFailure => 0
  | .stackOverflow => 1
  | .stackUnderflow => 2
  | .outOfBoundsAccess => 3
  | .programTooLarge => 4

/-- `raise`, the trap entry of R244: every write of the failing step is discarded, the status becomes
`Halted` with the error kind, the address `A` and the word if one was fetched, and nothing else changes: no
state is saved elsewhere, there is no vector and no mode. `s` is the state before the step, so `s.pc` is `A`.
There is no return from an error (R246): `Halted` is terminal. -/
def State.raise (s : State) (kind : ErrorKind) (word : Option Word) : State :=
  s.setStatus (.halted { kind := kind, pc := some s.pc, word := word })

/-- `raise` inside the instruction `i` at `s.pc` (R103). The word is the one that was fetched, which is the
encoding of `i` (R86; notes/assumptions/13.md). DEDUCED. -/
def raiseIn (i : Instr) (kind : ErrorKind) (s : State) : Out := .next (s.raise kind (some (encode i)))

end Sys2Proof.Machine
end

