-- ==== Sys2Proof/Machine/Operands.lean ====
section
/-! DEFINITION. The operand forms: registers, immediates, addresses, key indices and digits
(30_encoding.md R73, 43_index_memory.md R180, 44_keypad_timers.md R210). -/

namespace Sys2Proof.Machine

/-- `zext_16(nnn)` (R73). -/
def zextAddr (nnn : Addr12) : Word := nnn.zeroExtend 16

/-- `zext_16` of a byte (R73). -/
def zextByte (b : Byte) : Word := b.zeroExtend 16

/-- The base address of a memory access: `I` as an exact integer; byte `k` is at `I + k` with no wrap (R180). -/
def State.baseAddr (s : State) : Nat := s.i.toNat

/-- The register's value as an index in `0..15`: a key index (R210) or a digit (R183). None above 15. -/
def State.smallReg (s : State) (x : Nibble) : Option Nibble :=
  if (s.reg x).toNat > 15 then none else some ((s.reg x).extractLsb' 0 4)

/-- `keys[k]` at the moment of the step (R32, R210). -/
def State.keyDown (s : State) (k : Nibble) : Bool := s.keys[k.toNat]'k.isLt

/-- The address of glyph `d`: `FONT_BASE + 5 * d` (R183). -/
def glyphAddr (d : Nibble) : Word := BitVec.ofNat 16 (fontBase + 5 * d.toNat)

/-- The hundreds, tens and ones of a byte (R184). -/
def bcdDigits (v : Byte) : List Byte :=
  [BitVec.ofNat 8 (v.toNat / 100), BitVec.ofNat 8 (v.toNat / 10 % 10), BitVec.ofNat 8 (v.toNat % 10)]

end Sys2Proof.Machine
end

