-- ==== Sys2Proof/Machine/Alu.lean ====
section
/-! DEFINITION. The register ALU (41_alu.md). Operands are read before any write, the result is written first
and the flag last (R130). -/

namespace Sys2Proof.Machine

/-- `SetImm(x, nn)` (R131). -/
def execSetImm (x : Nibble) (nn : Byte) (s : State) : Out := .next (s.setReg x nn).advance

/-- `AddImm(x, nn)` (R132): modulo 256, no flag. -/
def execAddImm (x : Nibble) (nn : Byte) (s : State) : Out := .next (s.setReg x (s.reg x + nn)).advance

/-- `Assign(x, y)` (R133). -/
def execAssign (x y : Nibble) (s : State) : Out := .next (s.setReg x (s.reg y)).advance

/-- `Or(x, y)` (R134). -/
def execOr (x y : Nibble) (s : State) : Out := .next (s.setReg x (s.reg x ||| s.reg y)).advance

/-- `And(x, y)` (R135). -/
def execAnd (x y : Nibble) (s : State) : Out := .next (s.setReg x (s.reg x &&& s.reg y)).advance

/-- `Xor(x, y)` (R136). -/
def execXor (x y : Nibble) (s : State) : Out := .next (s.setReg x (s.reg x ^^^ s.reg y)).advance

/-- `Add(x, y)` (R137): VF is the carry. -/
def execAdd (x y : Nibble) (s : State) : Out :=
  .next (s.setRegFlag x (s.reg x + s.reg y) (carryFlag (s.reg x) (s.reg y))).advance

/-- `Sub(x, y)` (R138): VF is no-borrow. -/
def execSub (x y : Nibble) (s : State) : Out :=
  .next (s.setRegFlag x (s.reg x - s.reg y) (noBorrowFlag (s.reg x) (s.reg y))).advance

/-- `ShiftRight(x, y)` (R139): the source is `Vy`; VF is the bit shifted out. -/
def execShiftRight (x y : Nibble) (s : State) : Out :=
  .next (s.setRegFlag x (s.reg y >>> 1) (shiftedOutRight (s.reg y))).advance

/-- `ReverseSub(x, y)` (R140): `Vy - Vx`; VF is no-borrow. -/
def execReverseSub (x y : Nibble) (s : State) : Out :=
  .next (s.setRegFlag x (s.reg y - s.reg x) (noBorrowFlag (s.reg y) (s.reg x))).advance

/-- `ShiftLeft(x, y)` (R141): the source is `Vy`; VF is the bit shifted out. -/
def execShiftLeft (x y : Nibble) (s : State) : Out :=
  .next (s.setRegFlag x (s.reg y <<< 1) (shiftedOutLeft (s.reg y))).advance

/-- `Random(x, nn)` (R142): the random byte, a free value, masked by `nn`. -/
def execRandom (x : Nibble) (nn : Byte) (s : State) : Out := .next ((s.setReg x (s.rnd &&& nn)).drawn).advance

end Sys2Proof.Machine
end

