-- ==== Sys2Proof/Machine/Control.lean ====
section
/-! DEFINITION. Jumps, call, return and the register skips (40_sequencer_control.md). A meaning takes the state
before the instruction's fetch: `s.pc` is the instruction's address `A`, and `A + 2` is what the spec's
pseudocode calls `pc` (R15; notes/assumptions/14.md). -/

namespace Sys2Proof.Machine

/-- `Jump(nnn)` (R106). -/
def execJump (nnn : Addr12) (s : State) : Out := .next (s.setPc (zextAddr nnn))

/-- `Call(nnn)` (R107): pushes `A + 2`; a full stack raises. -/
def execCall (nnn : Addr12) (s : State) : Out :=
  if room : s.sp.val < 16 then .next ((s.push (s.pc + 2) room).setPc (zextAddr nnn))
  else raiseIn (.call nnn) .stackOverflow s

/-- `Return` (R108): pops into `pc`; an empty stack raises. -/
def execReturn (s : State) : Out :=
  match s.sp with
  | ⟨0, _⟩ => raiseIn .ret .stackUnderflow s
  | ⟨k + 1, h⟩ => .next (s.popPc k (Nat.lt_of_succ_lt_succ h))

/-- `JumpAddV0(nnn)` (R109): always `V0`; the sum is exact. -/
def execJumpAddV0 (nnn : Addr12) (s : State) : Out := .next (s.setPc (zextAddr nnn + zextByte (s.reg 0)))

/-- `SkipEqImm(x, nn)` (R111). -/
def execSkipEqImm (x : Nibble) (nn : Byte) (s : State) : Out := .next (s.skipIf (s.reg x == nn))

/-- `SkipNeImm(x, nn)` (R112). -/
def execSkipNeImm (x : Nibble) (nn : Byte) (s : State) : Out := .next (s.skipIf (s.reg x != nn))

/-- `SkipEqReg(x, y)` (R113). -/
def execSkipEqReg (x y : Nibble) (s : State) : Out := .next (s.skipIf (s.reg x == s.reg y))

/-- `SkipNeReg(x, y)` (R114). -/
def execSkipNeReg (x y : Nibble) (s : State) : Out := .next (s.skipIf (s.reg x != s.reg y))

end Sys2Proof.Machine
end

