-- ==== Sys2Proof/Machine/Framebuffer.lean ====
section
/-! DEFINITION. The framebuffer (10_state.md R29) and drawing a sprite on it (42_display.md R160, R162). -/

namespace Sys2Proof.Machine

/-- Pixel `fb[px][py]`, column `px` in `0..63`, row `py` in `0..31` (R29). -/
def Framebuffer.pixel (fb : Framebuffer) (px : Fin 64) (py : Fin 32) : Bool := fb[py.val].getLsbD px.val

/-- `fb[px][py] <- fb[px][py] XOR 1` (R162). -/
def Framebuffer.toggle (fb : Framebuffer) (px : Fin 64) (py : Fin 32) : Framebuffer :=
  fb.set py.val (fb[py.val] ^^^ BitVec.twoPow 64 px.val)

/-- Every pixel unset (R161). -/
def Framebuffer.blank : Framebuffer := Vector.replicate 32 0

/-- The column `(xs + col) mod 64` (R160). -/
def spriteColumn (xs : Byte) (col : Nat) : Fin 64 := ⟨(xs.toNat + col) % 64, Nat.mod_lt _ (by decide)⟩

/-- The row `(ys + row) mod 32` (R160). -/
def spriteRow (ys : Byte) (row : Nat) : Fin 32 := ⟨(ys.toNat + row) % 32, Nat.mod_lt _ (by decide)⟩

/-- The framebuffer and the collision flag while a sprite is drawn. -/
structure Drawing where
  fb : Framebuffer
  collision : Bool
  deriving DecidableEq, Repr

/-- One sprite pixel: an unset bit changes nothing, a set bit toggles the pixel and is a collision when the
pixel was set (R162, R163). -/
def drawPixel (bit : Bool) (px : Fin 64) (py : Fin 32) (d : Drawing) : Drawing :=
  if bit then { fb := d.fb.toggle px py, collision := d.collision || d.fb.pixel px py } else d

/-- One sprite row: columns 0 to 7, most-significant bit leftmost (R162). -/
def drawRow (b : Byte) (xs : Byte) (py : Fin 32) (d : Drawing) : Drawing :=
  (List.range 8).foldl (fun d col => drawPixel (b.getLsbD (7 - col)) (spriteColumn xs col) py d) d

/-- The whole sprite: row `row` is the byte at `I + row` (R162). -/
def drawRows (s : State) (base : Nat) (xs ys : Byte) (n : Nat) : Drawing :=
  (List.range n).foldl (fun d row => drawRow (s.readByte (base + row)) xs (spriteRow ys row) d)
    { fb := s.fb, collision := false }

end Sys2Proof.Machine
end

