-- ==== Sys2Proof/Machine/Display.lean ====
section
/-! DEFINITION. The display instructions (42_display.md), the only writers of the framebuffer (R166). -/

namespace Sys2Proof.Machine

/-- `Clear` (R161): every pixel unset. -/
def execClear (s : State) : Out := .next (s.setFb Framebuffer.blank).advance

/-- `DrawSprite(x, y, n)` (R162): the whole range is checked before any pixel changes; VF is the collision. -/
def execDrawSprite (x y n : Nibble) (s : State) : Out :=
  if checkReadFails s.baseAddr n.toNat then raiseIn (.drawSprite x y n) .outOfBoundsAccess s
  else
    let d := drawRows s s.baseAddr (s.reg x) (s.reg y) n.toNat
    .next ((s.setFb d.fb).setReg regVF (flagByte d.collision)).advance

end Sys2Proof.Machine
end

