-- ==== Sys2Proof/Machine/Index.lean ====
section
/-! DEFINITION. The index register and the memory-block instructions (43_index_memory.md). The whole range is
checked before anything is written (R59, R180). -/

namespace Sys2Proof.Machine

/-- `StoreNnnInI(nnn)` (R181). -/
def execStoreNnnInI (nnn : Addr12) (s : State) : Out := .next (s.setI (zextAddr nnn)).advance

/-- `AddToI(x)` (R182): modulo 65536, no flag, no range check. -/
def execAddToI (x : Nibble) (s : State) : Out := .next (s.setI (s.i + zextByte (s.reg x))).advance

/-- `LoadFontAddr(x)` (R183): a digit above 15 raises. -/
def execLoadFontAddr (x : Nibble) (s : State) : Out :=
  match s.smallReg x with
  | none => raiseIn (.loadFontAddr x) .outOfBoundsAccess s
  | some d => .next (s.setI (glyphAddr d)).advance

/-- `StoreBCD(x)` (R184): `I` is not changed. -/
def execStoreBCD (x : Nibble) (s : State) : Out :=
  if checkWriteFails s.cfg.writeProtectLimit s.baseAddr 3 then raiseIn (.storeBCD x) .outOfBoundsAccess s
  else .next (s.storeBytes s.baseAddr (bcdDigits (s.reg x))).advance

/-- `I <- (I + x + 1) mod 65536` (R185, R186). -/
def State.bumpI (s : State) (x : Nibble) : State := s.setI (s.i + BitVec.ofNat 16 (x.toNat + 1))

/-- `CopyRegisters(x)` (R185): `V0` to `Vx` to memory at `I`. -/
def execCopyRegisters (x : Nibble) (s : State) : Out :=
  if checkWriteFails s.cfg.writeProtectLimit s.baseAddr (x.toNat + 1) then
    raiseIn (.copyRegisters x) .outOfBoundsAccess s
  else .next ((s.storeBytes s.baseAddr (s.regsUpTo x)).bumpI x).advance

/-- `FillRegisters(x)` (R186): memory at `I` to `V0` to `Vx`. -/
def execFillRegisters (x : Nibble) (s : State) : Out :=
  if checkReadFails s.baseAddr (x.toNat + 1) then raiseIn (.fillRegisters x) .outOfBoundsAccess s
  else .next ((s.loadRegs x s.baseAddr).bumpI x).advance

end Sys2Proof.Machine
end

