-- ==== Sys2Proof/Machine/Keypad.lean ====
section
/-! DEFINITION. The keypad and timer instructions (44_keypad_timers.md). -/

namespace Sys2Proof.Machine

/-- `SkipIfKeyDown(x)` (R211): a key index above 15 raises (R210). -/
def execSkipIfKeyDown (x : Nibble) (s : State) : Out :=
  match s.smallReg x with
  | none => raiseIn (.skipIfKeyDown x) .outOfBoundsAccess s
  | some k => .next (s.skipIf (s.keyDown k))

/-- `SkipIfKeyNotDown(x)` (R212): a key index above 15 raises (R210). -/
def execSkipIfKeyNotDown (x : Nibble) (s : State) : Out :=
  match s.smallReg x with
  | none => raiseIn (.skipIfKeyNotDown x) .outOfBoundsAccess s
  | some k => .next (s.skipIf (!s.keyDown k))

/-- `WaitKeyDownStore(x)` (R213): `pc` stays at `A` and the core waits; the key press completes it (R214,
`State.keyPress`). -/
def execWaitKeyDownStore (x : Nibble) (s : State) : Out := .next (s.setStatus (.waitKey x))

/-- `LoadDelay(x)` (R216). -/
def execLoadDelay (x : Nibble) (s : State) : Out := .next (s.setReg x s.delay).advance

/-- `SetDelay(x)` (R217). -/
def execSetDelay (x : Nibble) (s : State) : Out := .next (s.setDelay (s.reg x)).advance

/-- `SetSound(x)` (R218). -/
def execSetSound (x : Nibble) (s : State) : Out := .next (s.setSound (s.reg x)).advance

end Sys2Proof.Machine
end

