-- ==== Sys2Proof/Machine/HostActions.lean ====
section
/-! DEFINITION. What the host does to the core and what it reads of it (60_exceptions.md R251-R262,
70_reset_and_hazards.md R280, R281). -/

namespace Sys2Proof.Machine

/-- A timer's tick: one less while nonzero, floors at 0, never wraps (R251). -/
def tickTimer (b : Byte) : Byte := if b = 0 then 0 else b - 1

/-- `Tick` (R251), enabled in every status (R252). -/
def State.tick (s : State) : State := { s with delay := tickTimer s.delay, sound := tickTimer s.sound }

/-- The host's keypad view after key `k` goes down or up. -/
def State.setKey (s : State) (k : Nibble) (down : Bool) : State := { s with keys := s.keys.set k.toNat down k.isLt }

/-- `KeyPress(k)` (R214): updates the keypad; in `WaitKey(x)` it also stores `k` in `Vx`, moves `pc` past the
waiting instruction and lets the core run. -/
def State.keyPress (s : State) (k : Nibble) : State :=
  match s.status with
  | .waitKey x => (((s.setKey k true).setReg x (k.zeroExtend 8)).advance).setStatus .running
  | _ => s.setKey k true

/-- `KeyRelease(k)` (R262). -/
def State.keyRelease (s : State) (k : Nibble) : State := s.setKey k false

/-- `Abort` (R261): enabled in `Running` and `WaitKey`; elsewhere it is not enabled and nothing happens
(notes/assumptions/11.md). -/
def State.abort (s : State) : State :=
  match s.status with
  | .running | .waitKey _ => s.setStatus .stopped
  | .halted _ | .stopped => s

/-- The sound signal the core exposes (R37, R253). -/
def State.soundSignal (s : State) : Bool := s.sound != 0

/-- The framebuffer as the host reads it (R255). -/
def State.pixel (s : State) (px : Fin 64) (py : Fin 32) : Bool := s.fb.pixel px py

/-- The values the spec decides for the parameters of the reset sequence (R10). DESIGN CHOICE, unsafe (the spec's
D7, D8, D9; notes/assumptions/1.md, 2.md); the font PRESUMED by the spec (D11; notes/assumptions/3.md). -/
def decidedInit : InitValues :=
  { v := Vector.replicate 16 0, i := 0, delay := 0, sound := 0, fb := Vector.replicate 32 0
    memFill := initMemFill, font := ⟨fontGlyphs.toArray, rfl⟩ }

/-- Step 1 of the reset sequence (R280): every piece of state at its value of R35, but memory all `InitMemFill`
and `pc` not yet meaningful (0 here: notes/assumptions/5.md). -/
def State.create (p : InitValues) (c : Config) : State :=
  { State.reset with
    mem := Memory.filled p.memFill
    v := p.v, i := p.i, pc := 0, delay := p.delay, sound := p.sound, fb := p.fb, cfg := c }

/-- Step 2 of the reset sequence (R280): the font `FontGlyphs`. -/
def State.fontInit (s : State) (p : InitValues) : State := s.storeBytes fontBase p.font.toList

/-- Step 3, `Load(bytes)` (R281): a program that is too long halts the core with nothing copied (R245); any
other is copied to `0x200`, without `CheckWrite`. -/
def State.load (s : State) (bytes : List Byte) : State :=
  if bytes.length > Config.maxProgram then
    s.setStatus (.halted { kind := .programTooLarge, pc := none, word := none })
  else
    ((s.storeBytes Config.programBase bytes).setPc (BitVec.ofNat 16 Config.programBase)).setStatus .running

/-- The reset sequence (R280): the state a run of the program `bytes` begins in. Load happens here, once and
before any step (R260). -/
def State.boot (p : InitValues) (c : Config) (bytes : List Byte) : State :=
  ((State.create p c).fontInit p).load bytes

/-- The state after reset with a program of no bytes, for given values of the parameters. `State.reset` is this
state at the decided ones. -/
def State.resetWith (p : InitValues) (c : Config) : State := State.boot p c []

end Sys2Proof.Machine
end

