-- ==== Sys2Proof/Machine/Sequencer.lean ====
section
/-! DEFINITION. The core step (40_sequencer_control.md R100-R103) and the turns the host schedules
(60_exceptions.md R260, R263). -/

namespace Sys2Proof.Machine

/-- Whether the fetch at `s.pc` raises (R101): past the last word, or odd where the parameter says so. -/
def State.fetchFails (s : State) : Bool :=
  decide (s.pc.toNat > 0xFFE) || (s.cfg.faultOnOddPC && s.pc.getLsbD 0)

/-- `CoreStep` of a running core (R103): fetch, decode, execute; the first check to fail raises (R247). The
keypad is `s.keys` and the random byte `s.rnd`. -/
def State.coreStep (s : State) : Out :=
  if s.fetchFails then .next (s.raise .outOfBoundsAccess none)
  else
    match decode s.cfg.strict59 (s.wordAt s.pc.toNat) with
    | .error _ => .next (s.raise .decodeFailure (some (s.wordAt s.pc.toNat)))
    | .ok i => exec i s

/-- The run loop lets the core step (R100). In `WaitKey` the loop attempts no fetch and nothing changes
(notes/assumptions/9.md); in `Halted` and `Stopped` the core never steps again: the run ends by name
(notes/assumptions/10.md). -/
def State.coreTurn (s : State) : Out :=
  match s.status with
  | .running => s.coreStep
  | .waitKey _ => .next s
  | .halted e => .fault (.coreHalted e)
  | .stopped => .fault .coreStopped

/-- One turn of the host's schedule (R260). -/
def State.takeTurn (s : State) : Turn → Out
  | .core => s.coreTurn
  | .tick => .next s.tick
  | .keyPress k => .next (s.keyPress k)
  | .keyRelease k => .next (s.keyRelease k)
  | .abort => .next s.abort

/-- What is left of the schedule: the turns the host has named, and how far the free schedule has come. -/
def State.setSchedule (s : State) (named : List Turn) (drawn : Nat) : State :=
  { s with turns := named, turnsDrawn := drawn }

/-- The host names the turns that come next. -/
def State.setTurns (s : State) (named : List Turn) : State := s.setSchedule named s.turnsDrawn

/-- One atomic step of the machine: the first turn the host has named, and when it has named none the next turn of
the free schedule (R260, R263). -/
def State.nextTurn (s : State) : Out :=
  match s.turns with
  | [] => (s.setSchedule [] (s.turnsDrawn + 1)).takeTurn (Config.schedule s.turnsDrawn)
  | t :: rest => (s.setSchedule rest s.turnsDrawn).takeTurn t

/-- Places an instruction word where the next fetch reads it, standing for Load (R281), and names a core step as
the next turn. -/
def State.placeWord (s : State) (w : Word) : State :=
  let bytes := bytesOfWord w
  ((s.storeBytes s.pc.toNat [bytes.1, bytes.2]).setStatus .running).setTurns (.core :: s.turns)

end Sys2Proof.Machine
end

