-- ==== Sys2Proof/Machine/Step.lean ====
section
/-! DEFINITION. The machine's step, and the placing of an instruction where the step fetches it. -/

namespace Sys2Proof.Machine

/-- One step of the machine (R260, R263). -/
def step (s : State) : Host.Outcome State Fault Refusal := s.nextTurn

/-- `s` with the instruction of a table word where the next step fetches it. -/
def State.withFetchWord (s : State) (nbits w : Nat) : State := s.placeWord (tableWord nbits w)

end Sys2Proof.Machine
end

