-- ==== Sys2Proof/Safety.lean ====
section
/-! DEFINITION. The terms the statements use: what a step leaves alone, which pixels a sprite covers, the causes
of an out-of-bounds error, and the invariants of the machine. -/

namespace Sys2Proof.Safety

open Sys2Proof.Machine

/-- The parts of the state a frame names. The call stack's slots and depth are one part,
and so is the schedule: the named turns and how far the free schedule has come. -/
inductive Part where
  | mem | v | i | pc | stack | delay | sound | fb | status | keys | draws | turns | cfg
  deriving DecidableEq, Repr

/-- The part is the same in `t` as in `s`: memory by the read of every byte, the registers by the read of every
register, the rest by value. -/
def Part.same : Part → State → State → Prop
  | .mem, s, t => ∀ a, t.readByte a = s.readByte a
  | .v, s, t => ∀ r, t.reg r = s.reg r
  | .i, s, t => t.i = s.i
  | .pc, s, t => t.pc = s.pc
  | .stack, s, t => t.slots = s.slots ∧ t.sp = s.sp
  | .delay, s, t => t.delay = s.delay
  | .sound, s, t => t.sound = s.sound
  | .fb, s, t => t.fb = s.fb
  | .status, s, t => t.status = s.status
  | .keys, s, t => t.keys = s.keys
  | .draws, s, t => t.draws = s.draws
  | .turns, s, t => t.turns = s.turns ∧ t.turnsDrawn = s.turnsDrawn
  | .cfg, s, t => t.cfg = s.cfg

/-- Every part but the named ones is the same in `t` as in `s`. -/
def SameExcept (changed : List Part) (s t : State) : Prop := ∀ f, f ∉ changed → f.same s t

/-- The frame of an instruction that writes general registers only: `pc` goes past the instruction (R104), the
named registers may change, every other register and every other part is the same. -/
def RegisterFrame (regs : List Nibble) (s t : State) : Prop :=
  t.pc = s.pc + 2 ∧ (∀ r, r ∉ regs → t.reg r = s.reg r) ∧ SameExcept [.v, .pc] s t

/-- The frame of an instruction that writes `pc` and the named parts only, `pc` going past it (R104). -/
def AdvanceFrame (changed : List Part) (s t : State) : Prop :=
  t.pc = s.pc + 2 ∧ SameExcept (.pc :: changed) s t

/-- The next turn is `t`, and `s'` is `s` with that turn taken off the schedule: the first of the turns the host has
named, or, when it has named none, the next of the free schedule. -/
def NextTurn (s : State) (t : Turn) (s' : State) : Prop :=
  (∃ rest, s.turns = t :: rest ∧ s' = s.setSchedule rest s.turnsDrawn) ∨
    (s.turns = [] ∧ Config.schedule s.turnsDrawn = t ∧ s' = s.setSchedule [] (s.turnsDrawn + 1))

/-- The next turn is a core step, taken from `s'`. -/
def CoreTurnNext (s s' : State) : Prop := NextTurn s .core s'

/-- The premise on the host that a claim of termination rests on (R263): in the free schedule a core step is always
still to come, so that one that stays enabled is taken. No statement about a single step needs it. -/
def FairSchedule : Prop := ∀ n, ∃ m, n ≤ m ∧ Config.schedule m = .core

/-- The sprite of `n` rows at `base` drawn at `(xs, ys)` has a 1-bit on pixel `(px, py)` (R160, R162): row `row`
is the byte at `base + row`, column 0 its most significant bit, both coordinates wrapping. -/
def SpriteCovers (s : State) (base : Nat) (xs ys : Byte) (n : Nat) (px : Fin 64) (py : Fin 32) : Prop :=
  ∃ row col : Nat, row < n ∧ col < 8 ∧ (s.readByte (base + row)).getLsbD (7 - col) = true ∧
    px.val = (xs.toNat + col) % 64 ∧ py.val = (ys.toNat + row) % 32

/-- The six skips (R104). -/
def IsSkip (i : Instr) : Prop :=
  ∃ x y nn, i = .skipEqImm x nn ∨ i = .skipNeImm x nn ∨ i = .skipEqReg x y ∨ i = .skipNeReg x y ∨
    i = .skipIfKeyDown x ∨ i = .skipIfKeyNotDown x

/-- The causes 3 to 8 of R243: what makes an instruction raise `OutOfBoundsAccess`, in exact integers. -/
def OutOfBoundsCause (s : State) (i : Instr) : Prop :=
  (∃ x y n, i = .drawSprite x y n ∧ 1 ≤ n.toNat ∧ s.i.toNat + n.toNat - 1 > 0xFFF) ∨
  (∃ x, i = .storeBCD x ∧ (s.i.toNat + 2 > 0xFFF ∨ s.i.toNat < s.cfg.writeProtectLimit)) ∨
  (∃ x, i = .copyRegisters x ∧ (s.i.toNat + x.toNat > 0xFFF ∨ s.i.toNat < s.cfg.writeProtectLimit)) ∨
  (∃ x, i = .fillRegisters x ∧ s.i.toNat + x.toNat > 0xFFF) ∨
  (∃ x, i = .loadFontAddr x ∧ (s.reg x).toNat > 15) ∨
  (∃ x, (i = .skipIfKeyDown x ∨ i = .skipIfKeyNotDown x) ∧ (s.reg x).toNat > 15)

/-- The quiescent point of R117: the core is running and the word at `pc` is a jump to `pc`. -/
def AtSelfLoop (s : State) : Prop :=
  s.status = .running ∧ s.pc.toNat ≤ 0xFFE ∧
    ∃ nnn, decode s.cfg.strict59 (s.wordAt s.pc.toNat) = .ok (.jump nnn) ∧ zextAddr nnn = s.pc

/-- The bound of R105: `pc` is at most `0x10FE`, every live return address at most `0x1000`, and a core that
waits for a key stands at an instruction that could be fetched. -/
def PcBounded (s : State) : Prop :=
  s.pc.toNat ≤ 0x10FE ∧ (∀ k (h : k < 16), k < s.sp.val → (s.slots[k]).toNat ≤ 0x1000) ∧
    ∀ x, s.status = .waitKey x → s.pc.toNat ≤ 0xFFE

/-- What R31, R244 and R245 say of the record in `Halted`: a failed load has neither `pc` nor word; any other
error has the address the core still stands at, and it lacks a word exactly when the fetch there fails. -/
def HaltRecordFaithful (s : State) : Prop :=
  ∀ e, s.status = .halted e →
    (e.kind = .programTooLarge → e.pc = none ∧ e.word = none) ∧
    (e.kind ≠ .programTooLarge →
      e.pc = some s.pc ∧ e.word = (if s.fetchFails then none else some (s.wordAt s.pc.toNat)))

/-- Two states that differ at most in the stack slots at index `sp` and above (R26). -/
def SameLiveStack (s t : State) : Prop :=
  t = { s with slots := t.slots } ∧ ∀ k (h : k < 16), k < s.sp.val → t.slots[k] = s.slots[k]

/-- Two outcomes related: both a next state with related states, or the same fault or refusal. -/
def RelatedOutcomes (rel : State → State → Prop) (a b : Out) : Prop :=
  (∃ s t, a = .next s ∧ b = .next t ∧ rel s t) ∨ (∃ f, a = .fault f ∧ b = .fault f) ∨
    (∃ r, a = .refused r ∧ b = .refused r)

end Sys2Proof.Safety
end

