-- ==== Sys2Proof/Certificates/Slice0/Obligations.lean ====
section
/-! DEFINITION. What the provers are asked to settle, from the spec's numbered rules. Each docstring names the
rules; a statement that rests on a decision of the spec or of the model says so. -/

open Sys2Proof Sys2Proof.Machine Sys2Proof.Safety

/-! ### Encoding and decoding (30_encoding.md) -/

/-- R71, R86: decoding an encoded instruction gives it back, for every instruction, every operand value and
either value of `Strict59`. -/
def Obligations.DecodeOfEncode : Prop :=
  ∀ (strict : Bool) (i : Instr), decode strict (encode i) = .ok i

/-- R86: with the spec's `Strict59 = true`, encoding what a legal word decodes to gives the word back, all 16
bits of it. -/
def Obligations.EncodeOfDecode : Prop :=
  ∀ (w : Word) (i : Instr), decode true w = .ok i → encode i = w

/-- R81, R83: with `Strict59 = true` the words that decode are exactly those that select a row of the opcode
map. -/
def Obligations.DecodesExactlyTheOpcodeMap : Prop :=
  ∀ w : Word, (∃ i, decode true w = .ok i) ↔ ∃ r ∈ opcodeTable, w &&& r.mask = r.value

/-- R81: the rows are pairwise disjoint, so at most one row matches any word. -/
def Obligations.OpcodeRowsAreDisjoint : Prop :=
  ∀ (w : Word) (r r' : OpcodeRow), r ∈ opcodeTable → r' ∈ opcodeTable →
    w &&& r.mask = r.value → w &&& r'.mask = r'.value → r = r'

/-- R76: of the words `0x0000`-`0x0FFF` only `00E0` and `00EE` decode; every other one is a decode failure. That
`00E0` is `Clear` and `00EE` is `Return` is the spec's decision D35 (notes/assumptions/18.md). -/
def Obligations.GroupZeroDecodesTwoWords : Prop :=
  ∀ (strict : Bool) (w : Word), w.toNat ≤ 0x0FFF →
    (w = 0x00E0 → decode strict w = .ok .clear) ∧ (w = 0x00EE → decode strict w = .ok .ret) ∧
    (w ≠ 0x00E0 → w ≠ 0x00EE → decode strict w = .error .group0)

/-- R72: the address operand of `Jump`, `Call`, `StoreNnnInI` and `JumpAddV0` is the word's low 12 bits, all of
them; `0xAFFF` is `StoreNnnInI(0xFFF)`. That groups 1, 2 and B are these instructions is the spec's decision D35
(notes/assumptions/18.md). -/
def Obligations.AddressOperandsKeepTwelveBits : Prop :=
  (∀ (strict : Bool) (w : Word), ∃ nnn : Addr12, nnn.toNat = w.toNat % 0x1000 ∧
    (w.toNat / 0x1000 = 0x1 → decode strict w = .ok (.jump nnn)) ∧
    (w.toNat / 0x1000 = 0x2 → decode strict w = .ok (.call nnn)) ∧
    (w.toNat / 0x1000 = 0xA → decode strict w = .ok (.storeNnnInI nnn)) ∧
    (w.toNat / 0x1000 = 0xB → decode strict w = .ok (.jumpAddV0 nnn))) ∧
  decode true 0xAFFF = .ok (.storeNnnInI 0xFFF)

/-- R82, R10: with `Strict59` a word of group 5 or 9 decodes only when its low nibble is 0; without it the low
nibble is ignored. The parameter matters to no other word. -/
def Obligations.LowNibbleOfGroupsFiveAndNine : Prop :=
  ∀ (t x y n : Nibble), (t = 5 ∨ t = 9) →
    ((∃ i, decode true (wordXYN t x y n) = .ok i) ↔ n = 0) ∧
    decode false (wordXYN t x y n) = decode true (wordXYN t x y 0) ∧
    ∀ w : Word, fieldT w ≠ 5 → fieldT w ≠ 9 → decode false w = decode true w

/-- R74, R81: words written out from the opcode map, at least one of each group, decode to the instruction they
stand for (V-E10, E2 and the vectors of 95_test_vectors.md; pairings by the spec's D34, D35). -/
def Obligations.SampleWordsDecode : Prop :=
  decode true 0x00E0 = .ok .clear ∧ decode true 0x1ABC = .ok (.jump 0xABC) ∧
  decode true 0x2300 = .ok (.call 0x300) ∧ decode true 0x3342 = .ok (.skipEqImm 3 0x42) ∧
  decode true 0x4342 = .ok (.skipNeImm 3 0x42) ∧ decode true 0x5120 = .ok (.skipEqReg 1 2) ∧
  decode true 0x6A5C = .ok (.setImm 0xA 0x5C) ∧ decode true 0x71FF = .ok (.addImm 1 0xFF) ∧
  decode true 0x8BC4 = .ok (.add 0xB 0xC) ∧ decode true 0x9120 = .ok (.skipNeReg 1 2) ∧
  decode true 0xAFFF = .ok (.storeNnnInI 0xFFF) ∧ decode true 0xB300 = .ok (.jumpAddV0 0x300) ∧
  decode true 0xC30F = .ok (.random 3 0x0F) ∧ decode true 0xD7AF = .ok (.drawSprite 7 0xA 0xF) ∧
  decode true 0xE5A1 = .ok (.skipIfKeyNotDown 5) ∧ decode true 0xF30A = .ok (.waitKeyDownStore 3) ∧
  decode true 0xFE65 = .ok (.fillRegisters 0xE)

/-! ### The step (40_sequencer_control.md, 60_exceptions.md) -/

/-- R102, R103: when a core turn comes to a running core, the fetch does not fail and the word at `pc` decodes to
`i`, the step is `exec i`. `exec` itself moves `pc` past the two bytes; the step only takes its own turn off the
schedule (the model's field, notes/assumptions/8.md and 14.md). -/
def Obligations.StepRunsDecodedInstruction : Prop :=
  ∀ (s s' : State) (i : Instr), CoreTurnNext s s' → s.status = .running → s.fetchFails = false →
    decode s.cfg.strict59 (s.wordAt s.pc.toNat) = .ok i → step s = exec i s'

/-- R101, R60: fetch fails past `0xFFE`, and at an odd address when the parameter says so, and only then; the
core halts with `OutOfBoundsAccess`, the address and no word, and nothing else changes. -/
def Obligations.FetchFailureHalts : Prop :=
  ∀ s s' : State, CoreTurnNext s s' → s.status = .running →
    (s.fetchFails = true ↔ s.pc.toNat > 0xFFE ∨ (s.cfg.faultOnOddPC = true ∧ s.pc.toNat % 2 = 1)) ∧
    (s.fetchFails = true →
      step s = .next { s' with status := .halted ⟨.outOfBoundsAccess, some s.pc, none⟩ })

/-- R102, R241: a word that does not decode halts the core with `DecodeFailure`, its address and the word (the
byte at `pc` first, R54), and nothing else changes. -/
def Obligations.DecodeFailureHalts : Prop :=
  ∀ (s s' : State) (why : DecodeReject), CoreTurnNext s s' → s.status = .running → s.fetchFails = false →
    decode s.cfg.strict59 (s.readByte s.pc.toNat ++ s.readByte (s.pc.toNat + 1)) = .error why →
      ∃ e, e = ErrorRecord.mk .decodeFailure (some s.pc)
          (some (s.readByte s.pc.toNat ++ s.readByte (s.pc.toNat + 1))) ∧
        step s = .next { s' with status := .halted e }

/-- R103, R244, R59: whatever error a core step raises, every write of the step is discarded and only the status
changes; the record has the address of the failing instruction, and the word there unless the fetch failed. -/
def Obligations.ErrorsArePrecise : Prop :=
  ∀ (s s' t : State) (e : ErrorRecord), CoreTurnNext s s' → s.status = .running → step s = .next t →
    t.status = .halted e →
      t = { s' with status := .halted e } ∧ e.pc = some s.pc ∧
        e.word = (if s.fetchFails then none else some (s.wordAt s.pc.toNat))

/-- R100: a core turn outside `Running` fetches nothing. In `WaitKey` nothing changes; in `Halted` and `Stopped`
the core never steps again. That the model waits by an unchanged state and ends by a named fault is its own
choice (notes/assumptions/9.md and 10.md). -/
def Obligations.CoreStepsOnlyWhileRunning : Prop :=
  ∀ s s' : State, CoreTurnNext s s' →
    (∀ x, s.status = .waitKey x → step s = .next s') ∧
    (∀ e, s.status = .halted e → step s = .fault (.coreHalted e)) ∧
    (s.status = .stopped → step s = .fault .coreStopped)

/-- R246, R265, R266: `Halted` and `Stopped` are terminal. Whatever the next turn is, a step that is taken there
keeps the status, with its error record, and changes at most the timers and the keypad view (and takes its turn
off the model's schedule). -/
def Obligations.TerminalStatesAreTerminal : Prop :=
  ∀ s t : State, ((∃ e, s.status = .halted e) ∨ s.status = .stopped) → step s = .next t →
    t.status = s.status ∧ SameExcept [.delay, .sound, .keys, .turns] s t

/-- Every step answers a next state, but a core turn in a terminal state, which ends by name; no step is refused.
R100 has no core step outside `Running` and R261 no abort in a terminal state: that a core turn in `WaitKey` and an
abort in a terminal state answer a next state, and that a core turn in a terminal state ends by a named fault, are
the model's choices (notes/assumptions/9.md, 11.md and 10.md). -/
def Obligations.OnlyTerminalCoreTurnsEnd : Prop :=
  ∀ s : State, (∃ t, step s = .next t) ∨
    ((∃ s', CoreTurnNext s s') ∧
      ((∃ e, s.status = .halted e ∧ step s = .fault (.coreHalted e)) ∨
        (s.status = .stopped ∧ step s = .fault .coreStopped)))

/-- R243 (with the spec's decisions D2, D5, D6): a running core's step halts with `OutOfBoundsAccess` exactly in
the eight cases the rule lists. -/
def Obligations.OutOfBoundsCauses : Prop :=
  ∀ s s' : State, CoreTurnNext s s' → s.status = .running →
    ((∃ t e, step s = .next t ∧ t.status = .halted e ∧ e.kind = .outOfBoundsAccess) ↔
      (s.pc.toNat > 0xFFE ∨ (s.cfg.faultOnOddPC = true ∧ s.pc.toNat % 2 = 1) ∨
        ∃ i, decode s.cfg.strict59 (s.wordAt s.pc.toNat) = .ok i ∧ OutOfBoundsCause s i))

/-- R242, R27: `Call` with 16 live entries raises `StackOverflow` and `Return` with none raises `StackUnderflow`,
with nothing but the status changed; no other instruction, and neither of these at another depth, raises them. -/
def Obligations.StackErrorsOnlyFromCallAndReturn : Prop :=
  (∀ (nnn : Addr12) (s : State), s.sp.val = 16 →
    exec (.call nnn) s = .next { s with status := .halted ⟨.stackOverflow, some s.pc, some (encode (.call nnn))⟩ }) ∧
  (∀ s : State, s.sp.val = 0 →
    exec .ret s = .next { s with status := .halted ⟨.stackUnderflow, some s.pc, some (encode .ret)⟩ }) ∧
  (∀ (i : Instr) (s t : State) (e : ErrorRecord), s.status = .running → exec i s = .next t →
    t.status = .halted e →
      (e.kind = .stackOverflow → s.sp.val = 16 ∧ ∃ nnn, i = .call nnn) ∧
      (e.kind = .stackUnderflow → s.sp.val = 0 ∧ i = .ret))

/-! ### Control transfer (40_sequencer_control.md) -/

/-- R104: an instruction that raises no error leaves `pc` two bytes on, unless it is `Jump`, `Call`, `JumpAddV0`,
`Return`, one of the six skips or `WaitKeyDownStore`; a skip leaves it two or four bytes on. That it stays at a
`WaitKeyDownStore` while the wait begins is the spec's decision D15 (notes/assumptions/22.md). -/
def Obligations.OnlyControlTransfersWritePc : Prop :=
  ∀ (i : Instr) (s t : State), s.status = .running → exec i s = .next t → (∀ e, t.status ≠ .halted e) →
    (t.pc ≠ s.pc + 2 →
      (∃ nnn, i = .jump nnn ∨ i = .call nnn ∨ i = .jumpAddV0 nnn) ∨ i = .ret ∨ IsSkip i ∨
        ∃ x, i = .waitKeyDownStore x) ∧
    (IsSkip i → t.pc = s.pc + 2 ∨ t.pc = s.pc + 4) ∧
    ((∃ x, i = .waitKeyDownStore x) → t.pc = s.pc)

/-- R106, R109: `Jump` sets `pc` to the whole 12-bit `nnn`, `JumpAddV0` to the exact sum of `nnn` and `V0`;
nothing else changes. -/
def Obligations.JumpsSetPc : Prop :=
  ∀ (nnn : Addr12) (s : State),
    (∃ t, exec (.jump nnn) s = .next t ∧ t.pc.toNat = nnn.toNat ∧ SameExcept [.pc] s t) ∧
    (∃ t, exec (.jumpAddV0 nnn) s = .next t ∧ t.pc.toNat = nnn.toNat + (s.reg 0).toNat ∧ SameExcept [.pc] s t)

/-- R107: while fewer than 16 entries are live, `Call` pushes the address after itself, moves to `nnn`, leaves the
entries below as they are and changes nothing else. -/
def Obligations.CallPushesReturnAddress : Prop :=
  ∀ (nnn : Addr12) (s : State) (room : s.sp.val < 16),
    ∃ t, exec (.call nnn) s = .next t ∧ t.pc.toNat = nnn.toNat ∧ t.sp.val = s.sp.val + 1 ∧
      t.slots[s.sp.val] = s.pc + 2 ∧
      (∀ k (h : k < 16), k ≠ s.sp.val → t.slots[k] = s.slots[k]) ∧ SameExcept [.pc, .stack] s t

/-- R108: while an entry is live, `Return` pops the top one into `pc` and changes nothing else. -/
def Obligations.ReturnPopsTopEntry : Prop :=
  ∀ (s : State) (k : Nat) (h : k < 16), s.sp.val = k + 1 →
    ∃ t, exec .ret s = .next t ∧ t.pc = s.slots[k] ∧ t.sp.val = k ∧ t.slots = s.slots ∧
      SameExcept [.pc, .stack] s t

/-- R108: a `Return` that finds the live stack a `Call` left, whatever else the called code changed, resumes after
that `Call` and leaves the depth as it was before it. -/
def Obligations.ReturnUndoesCall : Prop :=
  ∀ (nnn : Addr12) (s t u : State), s.sp.val < 16 → exec (.call nnn) s = .next t → u.sp = t.sp →
    (∀ k (h : k < 16), k < t.sp.val → u.slots[k] = t.slots[k]) →
      ∃ r, exec .ret u = .next r ∧ r.pc = s.pc + 2 ∧ r.sp = s.sp ∧
        ∀ k (h : k < 16), k < r.sp.val → r.slots[k] = s.slots[k]

/-- R110 to R114: each register skip goes two bytes further exactly when its condition holds, and changes nothing
but `pc`. -/
def Obligations.RegisterSkips : Prop :=
  ∀ (x y : Nibble) (nn : Byte) (s : State),
    (∃ t, exec (.skipEqImm x nn) s = .next t ∧ SameExcept [.pc] s t ∧
      t.pc = (if s.reg x = nn then s.pc + 4 else s.pc + 2)) ∧
    (∃ t, exec (.skipNeImm x nn) s = .next t ∧ SameExcept [.pc] s t ∧
      t.pc = (if s.reg x = nn then s.pc + 2 else s.pc + 4)) ∧
    (∃ t, exec (.skipEqReg x y) s = .next t ∧ SameExcept [.pc] s t ∧
      t.pc = (if s.reg x = s.reg y then s.pc + 4 else s.pc + 2)) ∧
    (∃ t, exec (.skipNeReg x y) s = .next t ∧ SameExcept [.pc] s t ∧
      t.pc = (if s.reg x = s.reg y then s.pc + 2 else s.pc + 4))

/-- R210 to R212: with the key index in `0..15` the key skips go two bytes further exactly when that key is down,
or up, and change nothing but `pc`; with a larger index they raise `OutOfBoundsAccess` and change nothing but the
status. -/
def Obligations.KeySkips : Prop :=
  ∀ (x : Nibble) (s : State),
    (∀ h : (s.reg x).toNat < 16,
      (∃ t, exec (.skipIfKeyDown x) s = .next t ∧ SameExcept [.pc] s t ∧
        t.pc = (if s.keys[(s.reg x).toNat] = true then s.pc + 4 else s.pc + 2)) ∧
      (∃ t, exec (.skipIfKeyNotDown x) s = .next t ∧ SameExcept [.pc] s t ∧
        t.pc = (if s.keys[(s.reg x).toNat] = true then s.pc + 2 else s.pc + 4))) ∧
    ((s.reg x).toNat > 15 →
      exec (.skipIfKeyDown x) s = .next
        { s with status := .halted ⟨.outOfBoundsAccess, some s.pc, some (encode (.skipIfKeyDown x))⟩ } ∧
      exec (.skipIfKeyNotDown x) s = .next
        { s with status := .halted ⟨.outOfBoundsAccess, some s.pc, some (encode (.skipIfKeyNotDown x))⟩ })

/-! ### The register ALU (41_alu.md) -/

/-- R131, R132, R133 (instructions the spec supplies by its decisions D33, D34): `SetImm` loads `nn`, `AddImm`
adds it modulo 256, `Assign` copies `Vy`; no flag is written, and nothing but `Vx` and `pc` changes. -/
def Obligations.ImmediateAndMoveResults : Prop :=
  ∀ (x y : Nibble) (nn : Byte) (s : State),
    (∃ t, exec (.setImm x nn) s = .next t ∧ t.reg x = nn ∧ RegisterFrame [x] s t) ∧
    (∃ t, exec (.addImm x nn) s = .next t ∧ (t.reg x).toNat = ((s.reg x).toNat + nn.toNat) % 256 ∧
      RegisterFrame [x] s t) ∧
    (∃ t, exec (.assign x y) s = .next t ∧ t.reg x = s.reg y ∧ RegisterFrame [x] s t)

/-- R134, R135, R136: `Or`, `And` and `Xor` combine `Vx` and `Vy` bit by bit into `Vx`; `VF` is unaffected unless
it is `Vx`, and nothing else changes but `pc`. -/
def Obligations.BitwiseResults : Prop :=
  ∀ (x y : Nibble) (s : State),
    (∃ t, exec (.or x y) s = .next t ∧ RegisterFrame [x] s t ∧
      ∀ k < 8, (t.reg x).getLsbD k = ((s.reg x).getLsbD k || (s.reg y).getLsbD k)) ∧
    (∃ t, exec (.and x y) s = .next t ∧ RegisterFrame [x] s t ∧
      ∀ k < 8, (t.reg x).getLsbD k = ((s.reg x).getLsbD k && (s.reg y).getLsbD k)) ∧
    (∃ t, exec (.xor x y) s = .next t ∧ RegisterFrame [x] s t ∧
      ∀ k < 8, (t.reg x).getLsbD k = ((s.reg x).getLsbD k ^^ (s.reg y).getLsbD k))

/-- R137, R22: `Add` leaves the sum modulo 256 in `Vx` and the carry in `VF`; with `x = 15` the flag wins. -/
def Obligations.AddResult : Prop :=
  ∀ (x y : Nibble) (s : State), ∃ t, exec (.add x y) s = .next t ∧
    (x ≠ regVF → (t.reg x).toNat = ((s.reg x).toNat + (s.reg y).toNat) % 256) ∧
    t.reg regVF = (if (s.reg x).toNat + (s.reg y).toNat > 255 then 1 else 0) ∧
    RegisterFrame [x, regVF] s t

/-- R138, R140, R22: `Sub` leaves `Vx - Vy` and `ReverseSub` `Vy - Vx`, modulo 256, in `Vx`, and no-borrow in
`VF`; with `x = 15` the flag wins. -/
def Obligations.SubtractResults : Prop :=
  ∀ (x y : Nibble) (s : State),
    (∃ t, exec (.sub x y) s = .next t ∧
      (x ≠ regVF → (t.reg x).toNat = (256 + (s.reg x).toNat - (s.reg y).toNat) % 256) ∧
      t.reg regVF = (if (s.reg x).toNat ≥ (s.reg y).toNat then 1 else 0) ∧ RegisterFrame [x, regVF] s t) ∧
    (∃ t, exec (.reverseSub x y) s = .next t ∧
      (x ≠ regVF → (t.reg x).toNat = (256 + (s.reg y).toNat - (s.reg x).toNat) % 256) ∧
      t.reg regVF = (if (s.reg y).toNat ≥ (s.reg x).toNat then 1 else 0) ∧ RegisterFrame [x, regVF] s t)

/-- R139, R141, R22: the shifts take their source from `Vy`, move it one bit, and leave the bit shifted out in
`VF`; with `x = 15` the flag wins. -/
def Obligations.ShiftResults : Prop :=
  ∀ (x y : Nibble) (s : State),
    (∃ t, exec (.shiftRight x y) s = .next t ∧ (x ≠ regVF → (t.reg x).toNat = (s.reg y).toNat / 2) ∧
      (t.reg regVF).toNat = (s.reg y).toNat % 2 ∧ RegisterFrame [x, regVF] s t) ∧
    (∃ t, exec (.shiftLeft x y) s = .next t ∧ (x ≠ regVF → (t.reg x).toNat = 2 * (s.reg y).toNat % 256) ∧
      (t.reg regVF).toNat = (s.reg y).toNat / 128 ∧ RegisterFrame [x, regVF] s t)

/-- R142, R33 (the spec's decisions D12, D34): `Random` leaves in `Vx` a byte that has a 1 only where both the
drawn byte and `nn` have one, for whatever byte is drawn; it draws one byte and changes nothing else but `pc`. -/
def Obligations.RandomIsMaskedDraw : Prop :=
  ∀ (x : Nibble) (nn : Byte) (s : State), ∃ t, exec (.random x nn) s = .next t ∧
    (∀ k < 8, (t.reg x).getLsbD k = ((Config.rnd s.draws).getLsbD k && nn.getLsbD k)) ∧
    t.draws = s.draws + 1 ∧ t.pc = s.pc + 2 ∧ (∀ r, r ≠ x → t.reg r = s.reg r) ∧
    SameExcept [.v, .pc, .draws] s t

/-- R23: an instruction changes `VF` only as one of the six flag writers or with `VF` as its destination, where
`FillRegisters` has it only with `x = 15`; and a flag writer that runs leaves 0 or 1 in it. -/
def Obligations.FlagWriters : Prop :=
  ∀ (i : Instr) (s t : State), exec i s = .next t →
    (t.reg regVF ≠ s.reg regVF →
      (∃ x y n, i = .add x y ∨ i = .sub x y ∨ i = .reverseSub x y ∨ i = .shiftRight x y ∨ i = .shiftLeft x y ∨
        i = .drawSprite x y n) ∨
      (∃ y nn, i = .setImm regVF nn ∨ i = .addImm regVF nn ∨ i = .assign regVF y ∨ i = .or regVF y ∨ i = .and regVF y ∨
        i = .xor regVF y ∨ i = .random regVF nn ∨ i = .loadDelay regVF ∨ i = .fillRegisters regVF)) ∧
    ((∃ x y n, i = .add x y ∨ i = .sub x y ∨ i = .reverseSub x y ∨ i = .shiftRight x y ∨ i = .shiftLeft x y ∨
        (i = .drawSprite x y n ∧ t.pc = s.pc + 2)) → t.reg regVF = 0 ∨ t.reg regVF = 1)

/-! ### The display (42_display.md) -/

/-- R161: `Clear` unsets every pixel, writes no flag and changes nothing else but `pc`. -/
def Obligations.ClearUnsetsEveryPixel : Prop :=
  ∀ s : State, ∃ t, exec .clear s = .next t ∧ (∀ px py, t.pixel px py = false) ∧ AdvanceFrame [.fb] s t

/-- R160, R162, R163: when the sprite's bytes lie in memory, `DrawSprite` toggles exactly the pixels its 1-bits
cover, sets `VF` to 1 exactly when one of them was set before, else to 0, and changes nothing else but `pc`. The
coordinates are those held before, also when `x` or `y` is 15. That each covered pixel is toggled once is R165,
which the spec derives; that a sprite of no rows needs no bytes in memory is the spec's decision D21
(notes/assumptions/23.md). -/
def Obligations.DrawSpriteXorsAndReportsCollision : Prop :=
  ∀ (x y n : Nibble) (s : State), (n.toNat = 0 ∨ s.i.toNat + n.toNat ≤ 0x1000) →
    ∃ t, exec (.drawSprite x y n) s = .next t ∧
      (∀ px py, SpriteCovers s s.i.toNat (s.reg x) (s.reg y) n.toNat px py → t.pixel px py = !s.pixel px py) ∧
      (∀ px py, ¬ SpriteCovers s s.i.toNat (s.reg x) (s.reg y) n.toNat px py → t.pixel px py = s.pixel px py) ∧
      ((∃ px py, SpriteCovers s s.i.toNat (s.reg x) (s.reg y) n.toNat px py ∧ s.pixel px py = true) →
        t.reg regVF = 1) ∧
      ((¬ ∃ px py, SpriteCovers s s.i.toNat (s.reg x) (s.reg y) n.toNat px py ∧ s.pixel px py = true) →
        t.reg regVF = 0) ∧
      t.pc = s.pc + 2 ∧ (∀ r, r ≠ regVF → t.reg r = s.reg r) ∧ SameExcept [.v, .pc, .fb] s t

/-- R164 (the spec's decision D21): with `n = 0`, `DrawSprite` raises nothing whatever `I` holds, changes no pixel
and writes 0 to `VF`. -/
def Obligations.EmptySpriteDrawsNothing : Prop :=
  ∀ (x y : Nibble) (s : State), ∃ t, exec (.drawSprite x y 0) s = .next t ∧ t.reg regVF = 0 ∧ RegisterFrame [regVF] s t

/-- R162, R163: a second draw of the same sprite at the same place (which it is unless the first draw's flag
changed a coordinate held in `VF`) puts the framebuffer back as it was, and
reports a collision exactly when the sprite covers a pixel that was unset before the first draw (which the first
draw set). -/
def Obligations.SecondDrawUndoesFirst : Prop :=
  ∀ (x y n : Nibble) (s t u : State), exec (.drawSprite x y n) s = .next t → t.pc = s.pc + 2 →
    t.reg x = s.reg x → t.reg y = s.reg y → exec (.drawSprite x y n) t = .next u →
      u.fb = s.fb ∧
        (u.reg regVF = 1 ↔
          ∃ px py, SpriteCovers s s.i.toNat (s.reg x) (s.reg y) n.toNat px py ∧ s.pixel px py = false)

/-- R166: whatever step is taken, the framebuffer changes only when a core step runs `Clear` or `DrawSprite`. -/
def Obligations.OnlyDisplayInstructionsWriteFramebuffer : Prop :=
  ∀ s t : State, step s = .next t → t.fb ≠ s.fb →
    s.status = .running ∧ (∃ s', CoreTurnNext s s') ∧
      ∃ i, decode s.cfg.strict59 (s.wordAt s.pc.toNat) = .ok i ∧ (i = .clear ∨ ∃ x y n, i = .drawSprite x y n)

/-! ### The index register and memory (20_memory.md, 43_index_memory.md) -/

/-- R181, R182, R187 (`AddToI` by the spec's decisions D4, D33, D34): `StoreNnnInI` loads the whole 12-bit `nnn`,
`AddToI` adds `Vx` modulo 65536 with no range check and no flag; nothing else changes but `pc`. -/
def Obligations.IndexRegisterWrites : Prop :=
  ∀ (nnn : Addr12) (x : Nibble) (s : State),
    (∃ t, exec (.storeNnnInI nnn) s = .next t ∧ t.i.toNat = nnn.toNat ∧ AdvanceFrame [.i] s t) ∧
    (∃ t, exec (.addToI x) s = .next t ∧ t.i.toNat = (s.i.toNat + (s.reg x).toNat) % 65536 ∧
      AdvanceFrame [.i] s t)

/-- R183 (the spec's decisions D6, D34): with a digit in `0..15`, `LoadFontAddr` sets `I` to five times it and
changes nothing else but `pc`; with a larger value it raises `OutOfBoundsAccess` and changes nothing but the
status. -/
def Obligations.FontAddress : Prop :=
  ∀ (x : Nibble) (s : State),
    ((s.reg x).toNat ≤ 15 →
      ∃ t, exec (.loadFontAddr x) s = .next t ∧ t.i.toNat = 5 * (s.reg x).toNat ∧ AdvanceFrame [.i] s t) ∧
    ((s.reg x).toNat > 15 →
      exec (.loadFontAddr x) s = .next
        { s with status := .halted ⟨.outOfBoundsAccess, some s.pc, some (encode (.loadFontAddr x))⟩ })

/-- R184: where the check passes, `StoreBCD` stores the three decimal digits of `Vx` at `I`, `I + 1`, `I + 2`,
hundreds first; every other byte, `I` and everything else but `pc` is unchanged. -/
def Obligations.StoreBcdResult : Prop :=
  ∀ (x : Nibble) (s : State), s.i.toNat + 2 ≤ 0xFFF → s.cfg.writeProtectLimit ≤ s.i.toNat →
    ∃ t, exec (.storeBCD x) s = .next t ∧
      (t.readByte s.baseAddr).toNat = (s.reg x).toNat / 100 ∧
      (t.readByte (s.baseAddr + 1)).toNat = (s.reg x).toNat / 10 % 10 ∧
      (t.readByte (s.baseAddr + 2)).toNat = (s.reg x).toNat % 10 ∧
      (∀ a, a < s.baseAddr ∨ s.baseAddr + 2 < a → t.readByte a = s.readByte a) ∧ AdvanceFrame [.mem] s t

/-- R185: where the check passes, `CopyRegisters` stores `V0` to `Vx` at `I` to `I + x` and leaves `I` at
`I + x + 1` modulo 65536; every other byte and everything else but `pc` is unchanged. -/
def Obligations.CopyRegistersResult : Prop :=
  ∀ (x : Nibble) (s : State), s.i.toNat + x.toNat ≤ 0xFFF → s.cfg.writeProtectLimit ≤ s.i.toNat →
    ∃ t, exec (.copyRegisters x) s = .next t ∧
      (∀ k : Nibble, k.toNat ≤ x.toNat → t.readByte (s.baseAddr + k.toNat) = s.reg k) ∧
      (∀ a, a < s.baseAddr ∨ s.baseAddr + x.toNat < a → t.readByte a = s.readByte a) ∧
      t.i.toNat = (s.i.toNat + x.toNat + 1) % 65536 ∧ AdvanceFrame [.mem, .i] s t

/-- R186: where the check passes, `FillRegisters` loads `V0` to `Vx` from `I` to `I + x` and leaves `I` at
`I + x + 1` modulo 65536; every register above `Vx`, memory and everything else but `pc` is unchanged. -/
def Obligations.FillRegistersResult : Prop :=
  ∀ (x : Nibble) (s : State), s.i.toNat + x.toNat ≤ 0xFFF →
    ∃ t, exec (.fillRegisters x) s = .next t ∧
      (∀ k : Nibble, k.toNat ≤ x.toNat → t.reg k = s.readByte (s.baseAddr + k.toNat)) ∧
      (∀ k : Nibble, x.toNat < k.toNat → t.reg k = s.reg k) ∧
      t.i.toNat = (s.i.toNat + x.toNat + 1) % 65536 ∧ AdvanceFrame [.v, .i] s t

/-- R57, R58, R59, R183, R210, R243 (its causes 3 to 8; the write-protect part and the digit are the spec's decisions
D5, D6): an instruction with one of those causes raises `OutOfBoundsAccess` and changes nothing but the status. -/
def Obligations.RangeErrorsWriteNothing : Prop :=
  ∀ (i : Instr) (s : State), OutOfBoundsCause s i →
    exec i s = .next { s with status := .halted ⟨.outOfBoundsAccess, some s.pc, some (encode i)⟩ }

/-- R185, R186: registers stored by `CopyRegisters` come back by a `FillRegisters` of the same registers from the
same base, whatever registers hold in between. -/
def Obligations.FillRestoresCopiedRegisters : Prop :=
  ∀ (x : Nibble) (s t u : State), s.i.toNat + x.toNat ≤ 0xFFF → s.cfg.writeProtectLimit ≤ s.i.toNat →
    exec (.copyRegisters x) s = .next t → u.mem = t.mem → u.i = s.i →
      ∃ r, exec (.fillRegisters x) u = .next r ∧ (∀ k : Nibble, k.toNat ≤ x.toNat → r.reg k = s.reg k) ∧ r.i = t.i

/-! ### Keypad, timers and host actions (44_keypad_timers.md, 60_exceptions.md) -/

/-- R216, R217, R218: `LoadDelay` copies the delay timer to `Vx`, `SetDelay` and `SetSound` copy `Vx` to the
timers; nothing else changes but `pc`. -/
def Obligations.TimerInstructions : Prop :=
  ∀ (x : Nibble) (s : State),
    (∃ t, exec (.loadDelay x) s = .next t ∧ t.reg x = s.delay ∧ RegisterFrame [x] s t) ∧
    (∃ t, exec (.setDelay x) s = .next t ∧ t.delay = s.reg x ∧ AdvanceFrame [.delay] s t) ∧
    (∃ t, exec (.setSound x) s = .next t ∧ t.sound = s.reg x ∧ (t.soundSignal = true ↔ s.reg x ≠ 0) ∧
      AdvanceFrame [.sound] s t)

/-- R213 (the spec's decision D15): `WaitKeyDownStore` leaves `pc` at the instruction and the status
`WaitKey(x)`, and changes nothing else, `Vx` included. -/
def Obligations.WaitKeyBegins : Prop :=
  ∀ (x : Nibble) (s : State), ∃ t, exec (.waitKeyDownStore x) s = .next t ∧ t.status = .waitKey x ∧
    t.pc = s.pc ∧ SameExcept [.status] s t

/-- R214 (the spec's decisions D15, D16): a key press in `WaitKey(x)` stores the key in `Vx`, moves `pc` past the
instruction and lets the core run; in any other status it changes the keypad only. In both, key `k` is down
after and no other key changes. Named by the host or drawn from the free schedule, the turn is taken off the
schedule (`s'`) and nothing more of it (notes/assumptions/8.md). -/
def Obligations.KeyPressCompletesWait : Prop :=
  ∀ (k : Nibble) (s s' : State), NextTurn s (.keyPress k) s' →
    ∃ t, step s = .next t ∧ t.keyDown k = true ∧ (∀ j, j ≠ k → t.keyDown j = s.keyDown j) ∧
      (∀ x, s.status = .waitKey x → t.status = .running ∧ (t.reg x).toNat = k.toNat ∧ t.pc = s.pc + 2 ∧
        (∀ r, r ≠ x → t.reg r = s.reg r) ∧ SameExcept [.v, .pc, .status, .keys] s' t) ∧
      ((∀ x, s.status ≠ .waitKey x) → SameExcept [.keys] s' t)

/-- R251, R252: a tick, in every status, takes one from each timer that is not 0, leaves a timer that is 0 at 0,
and changes nothing else. Named by the host or drawn from the free schedule, the turn is taken off the schedule
(`s'`) and nothing more of it (notes/assumptions/8.md). -/
def Obligations.TickDecrementsTimers : Prop :=
  ∀ s s' : State, NextTurn s .tick s' →
    ∃ t, step s = .next t ∧ t.delay.toNat = s.delay.toNat - 1 ∧ t.sound.toNat = s.sound.toNat - 1 ∧
      SameExcept [.delay, .sound] s' t

/-- R261 (the spec's decision D25): an abort stops a core that runs or waits and changes nothing else. That an
abort elsewhere leaves everything as it is is the model's choice (notes/assumptions/11.md). The turn is taken off
the schedule (`s'`; notes/assumptions/8.md). -/
def Obligations.AbortStopsTheCore : Prop :=
  ∀ s s' : State, NextTurn s .abort s' →
    ∃ t, step s = .next t ∧ SameExcept [.status] s' t ∧
      ((s.status = .running ∨ ∃ x, s.status = .waitKey x) → t.status = .stopped) ∧
      ((s.status = .stopped ∨ ∃ e, s.status = .halted e) → t.status = s.status)

/-- R262: a key release lets that key of the keypad view go up and changes nothing else: no other key, and no core
state, so that it neither completes nor cancels a wait. The turn is taken off the model's schedule (`s'`). -/
def Obligations.KeyReleaseChangesKeypadOnly : Prop :=
  ∀ (k : Nibble) (s s' : State), NextTurn s (.keyRelease k) s' →
    ∃ t, step s = .next t ∧ t.keyDown k = false ∧ (∀ j, j ≠ k → t.keyDown j = s.keyDown j) ∧
      SameExcept [.keys] s' t

/-! ### The whole machine -/

/-- R50, R56: every step keeps the memory in its canonical form, which names addresses of the 4096-byte space
only. -/
def Obligations.StepKeepsMemoryCanonical : Prop :=
  ∀ s t : State, s.mem.wf → step s = .next t → t.mem.wf

/-- R105: every step keeps `pc` at most `0x10FE` and every live return address at most `0x1000`, so that `pc`
never wraps. -/
def Obligations.StepKeepsPcBounded : Prop :=
  ∀ s t : State, PcBounded s → step s = .next t → PcBounded t

/-- R31, R244, R245, R265: every step keeps the error record true to the machine: the address it names is where the
core stands, and the word it names is the word there; and the record of a failed load names neither. -/
def Obligations.StepKeepsHaltRecordFaithful : Prop :=
  ∀ s t : State, HaltRecordFaithful s → step s = .next t → HaltRecordFaithful t

/-- R35, R280 to R282: the reset sequence for a program that fits, at any value of the parameters, leaves every
piece of state at its value of R35: the font, the program and the fill in memory, the registers, `I`, the timers
and the framebuffer at their parameters, `pc` at the reset vector, an empty stack and a running core. It meets the
invariants of the three statements above, and so does `State.reset`. That the stack is empty and the core runs are
the spec's decisions D10 and D32. -/
def Obligations.ResetMeetsInvariants : Prop :=
  (∀ (p : InitValues) (c : Config) (bytes : List Byte), bytes.length ≤ 3584 →
    (∀ d k (h : 5 * d + k < 80), k < 5 → (State.boot p c bytes).readByte (5 * d + k) = p.font[5 * d + k]) ∧
    (∀ k (h : k < bytes.length), (State.boot p c bytes).readByte (0x200 + k) = bytes[k]) ∧
    (∀ a, 0x50 ≤ a → a < 0x1000 → (a < 0x200 ∨ 0x200 + bytes.length ≤ a) →
      (State.boot p c bytes).readByte a = p.memFill) ∧
    (∀ r, (State.boot p c bytes).reg r = p.v[r.toNat]) ∧ (State.boot p c bytes).i = p.i ∧
    (State.boot p c bytes).pc = 0x200 ∧ (State.boot p c bytes).sp.val = 0 ∧
    (State.boot p c bytes).delay = p.delay ∧ (State.boot p c bytes).sound = p.sound ∧
    (State.boot p c bytes).fb = p.fb ∧ (State.boot p c bytes).status = .running ∧
    (State.boot p c bytes).cfg = c ∧ (State.boot p c bytes).mem.wf ∧ PcBounded (State.boot p c bytes) ∧
    HaltRecordFaithful (State.boot p c bytes)) ∧
  State.reset.mem.wf ∧ PcBounded State.reset ∧ HaltRecordFaithful State.reset

/-- R58, R52 (the limit is the spec's decision D5): no step of any kind changes a byte below
`WriteProtectLimit`; at the decided `0x200` that is the whole reserved region with the font. -/
def Obligations.ProtectedMemoryNeverChanges : Prop :=
  ∀ (s t : State) (a : Nat), a < s.cfg.writeProtectLimit → step s = .next t →
    t.readByte a = s.readByte a ∧ t.cfg = s.cfg

/-- R28, R251: whatever step is taken, a timer does not rise unless a core step runs the instruction that sets
it. -/
def Obligations.TimersRiseOnlyWhenSet : Prop :=
  ∀ s t : State, step s = .next t →
    (t.delay.toNat > s.delay.toNat →
      ∃ s' x, CoreTurnNext s s' ∧ s.status = .running ∧
        decode s.cfg.strict59 (s.wordAt s.pc.toNat) = .ok (.setDelay x)) ∧
    (t.sound.toNat > s.sound.toNat →
      ∃ s' x, CoreTurnNext s s' ∧ s.status = .running ∧
        decode s.cfg.strict59 (s.wordAt s.pc.toNat) = .ok (.setSound x))

/-- R26, R38: stack slots at index `sp` and above are not observable: states that differ only there step to states
that differ only there, or stop alike. The two states have the same `draws` and the same place in the
schedule, so a `Random` draws the same byte and the host takes the same turn in both: the model's choice, the inputs
being the same in both steps (notes/assumptions/6.md, 8.md). -/
def Obligations.DeadStackSlotsUnobservable : Prop :=
  ∀ s t : State, SameLiveStack s t → RelatedOutcomes SameLiveStack (step s) (step t)

/-- R254, R32: only the two key skips read the keypad: every other instruction does the same whatever keys are
down; and no instruction at all changes the keypad. Both states have the same `draws`, so a `Random` draws the same
byte in both: the model's choice, the input `rnd` being the same in both steps (notes/assumptions/6.md). -/
def Obligations.KeypadReadOnlyByKeySkips : Prop :=
  (∀ (i : Instr) (s : State) (keys : Vector Bool 16),
    (∀ x, i ≠ .skipIfKeyDown x ∧ i ≠ .skipIfKeyNotDown x) →
      RelatedOutcomes (fun t t' => t' = { t with keys := keys }) (exec i s) (exec i { s with keys := keys })) ∧
  ∀ (i : Instr) (s t : State), exec i s = .next t → t.keys = s.keys

/-- R28, R34: no instruction reads the sound timer: with another value of it every instruction does the same, and
leaves that value unless it is `SetSound`. Both states have the same `draws`, so a `Random` draws the same byte in
both: the model's choice, the input `rnd` being the same in both steps (notes/assumptions/6.md). -/
def Obligations.SoundTimerReadByNoInstruction : Prop :=
  ∀ (i : Instr) (s : State) (b : Byte),
    RelatedOutcomes (fun t t' => t' = { t with sound := t'.sound } ∧
        ((∃ x, i = .setSound x) → t'.sound = t.sound) ∧
        ((∀ x, i ≠ .setSound x) → t'.sound = b ∧ t.sound = s.sound))
      (exec i s) (exec i { s with sound := b })

/-- R117 (the spec's decision D36): from a self-loop whose fetch does not fail, a core step changes nothing but
the schedule. -/
def Obligations.SelfLoopIsQuiescent : Prop :=
  ∀ s s' : State, CoreTurnNext s s' → AtSelfLoop s → s.fetchFails = false → step s = .next s'

/-- R281, R245 (all-or-nothing is the spec's decision D31): `Load` of at most 3584 bytes copies them to `0x200`
on, keeps every other byte, sets `pc` to `0x200` and lets the core run; a longer program halts the core with
nothing copied and nothing else changed. Either way memory stays canonical. -/
def Obligations.LoadCopiesOrHalts : Prop :=
  ∀ (s : State) (bytes : List Byte),
    (bytes.length ≤ 3584 →
      (∀ k (h : k < bytes.length), (s.load bytes).readByte (0x200 + k) = bytes[k]) ∧
      (∀ a, a < 0x200 ∨ 0x200 + bytes.length ≤ a → (s.load bytes).readByte a = s.readByte a) ∧
      (s.load bytes).pc = 0x200 ∧ (s.load bytes).status = .running ∧
      SameExcept [.mem, .pc, .status] s (s.load bytes)) ∧
    (bytes.length > 3584 →
      s.load bytes = { s with status := .halted ⟨.programTooLarge, none, none⟩ }) ∧
    (s.mem.wf → (s.load bytes).mem.wf)
end

