-- ==== Sys2Proof/Laws/Decode.lean ====
section
/-! SUPPORT. The laws of the word layouts: each field of a word laid out by R71 is what was put there, and a word
is its fields put together. -/

namespace Sys2Proof

/-! The fields of `t x y n` -/

@[simp] theorem fieldT_wordXYN (t x y n : Nibble) : fieldT (wordXYN t x y n) = t := by
  apply BitVec.eq_of_getLsbD_eq
  intro i hi
  have e : ¬ 12 + i < 12 ∧ 12 + i - 12 = i := by omega
  simp only [fieldT, wordXYN, BitVec.getLsbD_append, BitVec.getLsbD_extractLsb']
  simp [hi, e]

@[simp] theorem fieldX_wordXYN (t x y n : Nibble) : fieldX (wordXYN t x y n) = x := by
  apply BitVec.eq_of_getLsbD_eq
  intro i hi
  have e : 8 + i < 12 ∧ ¬ 8 + i < 8 ∧ 8 + i - 8 = i := by omega
  simp only [fieldX, wordXYN, BitVec.getLsbD_append, BitVec.getLsbD_extractLsb']
  simp [hi, e]

@[simp] theorem fieldY_wordXYN (t x y n : Nibble) : fieldY (wordXYN t x y n) = y := by
  apply BitVec.eq_of_getLsbD_eq
  intro i hi
  have e : 4 + i < 12 ∧ 4 + i < 8 ∧ ¬ 4 + i < 4 ∧ 4 + i - 4 = i := by omega
  simp only [fieldY, wordXYN, BitVec.getLsbD_append, BitVec.getLsbD_extractLsb']
  simp [hi, e]

@[simp] theorem fieldN_wordXYN (t x y n : Nibble) : fieldN (wordXYN t x y n) = n := by
  apply BitVec.eq_of_getLsbD_eq
  intro i hi
  have e : i < 12 ∧ i < 8 := by omega
  simp only [fieldN, wordXYN, BitVec.getLsbD_append, BitVec.getLsbD_extractLsb']
  simp [hi, e]

/-! The fields of `t x nn` -/

@[simp] theorem fieldT_wordXNN (t x : Nibble) (nn : Byte) : fieldT (wordXNN t x nn) = t := by
  apply BitVec.eq_of_getLsbD_eq
  intro i hi
  have e : ¬ 12 + i < 12 ∧ 12 + i - 12 = i := by omega
  simp only [fieldT, wordXNN, BitVec.getLsbD_append, BitVec.getLsbD_extractLsb']
  simp [hi, e]

@[simp] theorem fieldX_wordXNN (t x : Nibble) (nn : Byte) : fieldX (wordXNN t x nn) = x := by
  apply BitVec.eq_of_getLsbD_eq
  intro i hi
  have e : 8 + i < 12 ∧ ¬ 8 + i < 8 ∧ 8 + i - 8 = i := by omega
  simp only [fieldX, wordXNN, BitVec.getLsbD_append, BitVec.getLsbD_extractLsb']
  simp [hi, e]

@[simp] theorem fieldNN_wordXNN (t x : Nibble) (nn : Byte) : fieldNN (wordXNN t x nn) = nn := by
  apply BitVec.eq_of_getLsbD_eq
  intro i hi
  have e : i < 12 := by omega
  simp only [fieldNN, wordXNN, BitVec.getLsbD_append, BitVec.getLsbD_extractLsb']
  simp [hi, e]

/-! The fields of `t nnn` -/

@[simp] theorem fieldT_wordNNN (t : Nibble) (nnn : Addr12) : fieldT (wordNNN t nnn) = t := by
  apply BitVec.eq_of_getLsbD_eq
  intro i hi
  have e : ¬ 12 + i < 12 ∧ 12 + i - 12 = i := by omega
  simp only [fieldT, wordNNN, BitVec.getLsbD_append, BitVec.getLsbD_extractLsb']
  simp [hi, e]

@[simp] theorem fieldNNN_wordNNN (t : Nibble) (nnn : Addr12) : fieldNNN (wordNNN t nnn) = nnn := by
  apply BitVec.eq_of_getLsbD_eq
  intro i hi
  have e : 0 + i = i := by omega
  simp only [fieldNNN, wordNNN, BitVec.getLsbD_append, BitVec.getLsbD_extractLsb']
  simp [hi, e]

/-! A word is its fields -/

theorem word_eq_wordXYN (w : Word) : w = wordXYN (fieldT w) (fieldX w) (fieldY w) (fieldN w) := by
  apply BitVec.eq_of_getLsbD_eq
  intro i hi
  simp only [fieldT, fieldX, fieldY, fieldN, wordXYN, BitVec.getLsbD_append, BitVec.getLsbD_extractLsb']
  rcases (by omega : i < 4 ∨ (4 ≤ i ∧ i < 8) ∨ (8 ≤ i ∧ i < 12) ∨ (12 ≤ i ∧ i < 16)) with h | h | h | h
  · have e : i < 4 ∧ i < 8 ∧ i < 12 ∧ i - 0 < 4 ∧ 0 + (i - 0) = i := by omega
    simp [e]
  · have e : ¬ i < 4 ∧ i < 8 ∧ i < 12 ∧ i - 4 < 4 ∧ 4 + (i - 4) = i := by omega
    simp [e]
  · have e : ¬ i < 4 ∧ ¬ i < 8 ∧ i < 12 ∧ i - 8 < 4 ∧ 8 + (i - 8) = i := by omega
    simp [e]
  · have e : ¬ i < 4 ∧ ¬ i < 8 ∧ ¬ i < 12 ∧ i - 12 < 4 ∧ 12 + (i - 12) = i := by omega
    simp [e]

theorem word_eq_wordXNN (w : Word) : w = wordXNN (fieldT w) (fieldX w) (fieldNN w) := by
  apply BitVec.eq_of_getLsbD_eq
  intro i hi
  simp only [fieldT, fieldX, fieldNN, wordXNN, BitVec.getLsbD_append, BitVec.getLsbD_extractLsb']
  rcases (by omega : i < 8 ∨ (8 ≤ i ∧ i < 12) ∨ (12 ≤ i ∧ i < 16)) with h | h | h
  · have e : i < 8 ∧ i < 12 ∧ i - 0 < 8 ∧ 0 + (i - 0) = i := by omega
    simp [e]
  · have e : ¬ i < 8 ∧ i < 12 ∧ i - 8 < 4 ∧ 8 + (i - 8) = i := by omega
    simp [e]
  · have e : ¬ i < 8 ∧ ¬ i < 12 ∧ i - 12 < 4 ∧ 12 + (i - 12) = i := by omega
    simp [e]

theorem word_eq_wordNNN (w : Word) : w = wordNNN (fieldT w) (fieldNNN w) := by
  apply BitVec.eq_of_getLsbD_eq
  intro i hi
  simp only [fieldT, fieldNNN, wordNNN, BitVec.getLsbD_append, BitVec.getLsbD_extractLsb']
  rcases (by omega : i < 12 ∨ (12 ≤ i ∧ i < 16)) with h | h
  · have e : i < 12 ∧ i - 0 < 12 ∧ 0 + (i - 0) = i := by omega
    simp [e]
  · have e : ¬ i < 12 ∧ i - 12 < 4 ∧ 12 + (i - 12) = i := by omega
    simp [e]

/-- The bytes of a word, put together again, are the word (R54). -/
@[simp] theorem wordOfBytes_bytesOfWord (w : Word) : wordOfBytes (bytesOfWord w).1 (bytesOfWord w).2 = w := by
  apply BitVec.eq_of_getLsbD_eq
  intro i hi
  simp only [wordOfBytes, bytesOfWord, BitVec.getLsbD_append, BitVec.getLsbD_extractLsb']
  by_cases h : i < 8
  · simp [h]
  · have e : i - 8 < 8 ∧ 8 + (i - 8) = i := by omega
    simp [h, e]

/-- Every term of the instruction type is well formed (R80, R84). -/
theorem Instr.wf_all (i : Instr) : i.wf = true := by
  cases i <;> simp [Instr.wf] <;> omega

end Sys2Proof
end

