-- ==== Sys2Proof/Laws/State.lean ====
section
/-! SUPPORT. The laws of the state's updates: one lemma per field, and per register and byte read, of each update,
true by unfolding the update once. -/

namespace Sys2Proof.Machine

/-! `State.setReg` -/

@[simp] theorem State.setReg_mem (s : State) (x : Nibble) (b : Byte) : (s.setReg x b).mem = s.mem := rfl
@[simp] theorem State.setReg_v (s : State) (x : Nibble) (b : Byte) : (s.setReg x b).v = s.v.set x.toNat b x.isLt := rfl
@[simp] theorem State.setReg_i (s : State) (x : Nibble) (b : Byte) : (s.setReg x b).i = s.i := rfl
@[simp] theorem State.setReg_pc (s : State) (x : Nibble) (b : Byte) : (s.setReg x b).pc = s.pc := rfl
@[simp] theorem State.setReg_slots (s : State) (x : Nibble) (b : Byte) : (s.setReg x b).slots = s.slots := rfl
@[simp] theorem State.setReg_sp (s : State) (x : Nibble) (b : Byte) : (s.setReg x b).sp = s.sp := rfl
@[simp] theorem State.setReg_delay (s : State) (x : Nibble) (b : Byte) : (s.setReg x b).delay = s.delay := rfl
@[simp] theorem State.setReg_sound (s : State) (x : Nibble) (b : Byte) : (s.setReg x b).sound = s.sound := rfl
@[simp] theorem State.setReg_fb (s : State) (x : Nibble) (b : Byte) : (s.setReg x b).fb = s.fb := rfl
@[simp] theorem State.setReg_status (s : State) (x : Nibble) (b : Byte) : (s.setReg x b).status = s.status := rfl
@[simp] theorem State.setReg_keys (s : State) (x : Nibble) (b : Byte) : (s.setReg x b).keys = s.keys := rfl
@[simp] theorem State.setReg_draws (s : State) (x : Nibble) (b : Byte) : (s.setReg x b).draws = s.draws := rfl
@[simp] theorem State.setReg_turns (s : State) (x : Nibble) (b : Byte) : (s.setReg x b).turns = s.turns := rfl
@[simp] theorem State.setReg_turnsDrawn (s : State) (x : Nibble) (b : Byte) : (s.setReg x b).turnsDrawn = s.turnsDrawn := rfl
@[simp] theorem State.setReg_cfg (s : State) (x : Nibble) (b : Byte) : (s.setReg x b).cfg = s.cfg := rfl
@[simp] theorem State.setReg_readByte (s : State) (x : Nibble) (b : Byte) (a : Nat) : (s.setReg x b).readByte a = s.readByte a := rfl

/-! `State.setRegFlag` -/

@[simp] theorem State.setRegFlag_mem (s : State) (x : Nibble) (b f : Byte) : (s.setRegFlag x b f).mem = s.mem := rfl
@[simp] theorem State.setRegFlag_i (s : State) (x : Nibble) (b f : Byte) : (s.setRegFlag x b f).i = s.i := rfl
@[simp] theorem State.setRegFlag_pc (s : State) (x : Nibble) (b f : Byte) : (s.setRegFlag x b f).pc = s.pc := rfl
@[simp] theorem State.setRegFlag_slots (s : State) (x : Nibble) (b f : Byte) : (s.setRegFlag x b f).slots = s.slots := rfl
@[simp] theorem State.setRegFlag_sp (s : State) (x : Nibble) (b f : Byte) : (s.setRegFlag x b f).sp = s.sp := rfl
@[simp] theorem State.setRegFlag_delay (s : State) (x : Nibble) (b f : Byte) : (s.setRegFlag x b f).delay = s.delay := rfl
@[simp] theorem State.setRegFlag_sound (s : State) (x : Nibble) (b f : Byte) : (s.setRegFlag x b f).sound = s.sound := rfl
@[simp] theorem State.setRegFlag_fb (s : State) (x : Nibble) (b f : Byte) : (s.setRegFlag x b f).fb = s.fb := rfl
@[simp] theorem State.setRegFlag_status (s : State) (x : Nibble) (b f : Byte) : (s.setRegFlag x b f).status = s.status := rfl
@[simp] theorem State.setRegFlag_keys (s : State) (x : Nibble) (b f : Byte) : (s.setRegFlag x b f).keys = s.keys := rfl
@[simp] theorem State.setRegFlag_draws (s : State) (x : Nibble) (b f : Byte) : (s.setRegFlag x b f).draws = s.draws := rfl
@[simp] theorem State.setRegFlag_turns (s : State) (x : Nibble) (b f : Byte) : (s.setRegFlag x b f).turns = s.turns := rfl
@[simp] theorem State.setRegFlag_turnsDrawn (s : State) (x : Nibble) (b f : Byte) : (s.setRegFlag x b f).turnsDrawn = s.turnsDrawn := rfl
@[simp] theorem State.setRegFlag_cfg (s : State) (x : Nibble) (b f : Byte) : (s.setRegFlag x b f).cfg = s.cfg := rfl
@[simp] theorem State.setRegFlag_readByte (s : State) (x : Nibble) (b f : Byte) (a : Nat) : (s.setRegFlag x b f).readByte a = s.readByte a := rfl

/-! `State.setI` -/

@[simp] theorem State.setI_mem (s : State) (w : Word) : (s.setI w).mem = s.mem := rfl
@[simp] theorem State.setI_v (s : State) (w : Word) : (s.setI w).v = s.v := rfl
@[simp] theorem State.setI_i (s : State) (w : Word) : (s.setI w).i = w := rfl
@[simp] theorem State.setI_pc (s : State) (w : Word) : (s.setI w).pc = s.pc := rfl
@[simp] theorem State.setI_slots (s : State) (w : Word) : (s.setI w).slots = s.slots := rfl
@[simp] theorem State.setI_sp (s : State) (w : Word) : (s.setI w).sp = s.sp := rfl
@[simp] theorem State.setI_delay (s : State) (w : Word) : (s.setI w).delay = s.delay := rfl
@[simp] theorem State.setI_sound (s : State) (w : Word) : (s.setI w).sound = s.sound := rfl
@[simp] theorem State.setI_fb (s : State) (w : Word) : (s.setI w).fb = s.fb := rfl
@[simp] theorem State.setI_status (s : State) (w : Word) : (s.setI w).status = s.status := rfl
@[simp] theorem State.setI_keys (s : State) (w : Word) : (s.setI w).keys = s.keys := rfl
@[simp] theorem State.setI_draws (s : State) (w : Word) : (s.setI w).draws = s.draws := rfl
@[simp] theorem State.setI_turns (s : State) (w : Word) : (s.setI w).turns = s.turns := rfl
@[simp] theorem State.setI_turnsDrawn (s : State) (w : Word) : (s.setI w).turnsDrawn = s.turnsDrawn := rfl
@[simp] theorem State.setI_cfg (s : State) (w : Word) : (s.setI w).cfg = s.cfg := rfl
@[simp] theorem State.setI_reg (s : State) (w : Word) (r : Nibble) : (s.setI w).reg r = s.reg r := rfl
@[simp] theorem State.setI_readByte (s : State) (w : Word) (a : Nat) : (s.setI w).readByte a = s.readByte a := rfl

/-! `State.bumpI` -/

@[simp] theorem State.bumpI_mem (s : State) (x : Nibble) : (s.bumpI x).mem = s.mem := rfl
@[simp] theorem State.bumpI_v (s : State) (x : Nibble) : (s.bumpI x).v = s.v := rfl
@[simp] theorem State.bumpI_i (s : State) (x : Nibble) : (s.bumpI x).i = s.i + BitVec.ofNat 16 (x.toNat + 1) := rfl
@[simp] theorem State.bumpI_pc (s : State) (x : Nibble) : (s.bumpI x).pc = s.pc := rfl
@[simp] theorem State.bumpI_slots (s : State) (x : Nibble) : (s.bumpI x).slots = s.slots := rfl
@[simp] theorem State.bumpI_sp (s : State) (x : Nibble) : (s.bumpI x).sp = s.sp := rfl
@[simp] theorem State.bumpI_delay (s : State) (x : Nibble) : (s.bumpI x).delay = s.delay := rfl
@[simp] theorem State.bumpI_sound (s : State) (x : Nibble) : (s.bumpI x).sound = s.sound := rfl
@[simp] theorem State.bumpI_fb (s : State) (x : Nibble) : (s.bumpI x).fb = s.fb := rfl
@[simp] theorem State.bumpI_status (s : State) (x : Nibble) : (s.bumpI x).status = s.status := rfl
@[simp] theorem State.bumpI_keys (s : State) (x : Nibble) : (s.bumpI x).keys = s.keys := rfl
@[simp] theorem State.bumpI_draws (s : State) (x : Nibble) : (s.bumpI x).draws = s.draws := rfl
@[simp] theorem State.bumpI_turns (s : State) (x : Nibble) : (s.bumpI x).turns = s.turns := rfl
@[simp] theorem State.bumpI_turnsDrawn (s : State) (x : Nibble) : (s.bumpI x).turnsDrawn = s.turnsDrawn := rfl
@[simp] theorem State.bumpI_cfg (s : State) (x : Nibble) : (s.bumpI x).cfg = s.cfg := rfl
@[simp] theorem State.bumpI_reg (s : State) (x : Nibble) (r : Nibble) : (s.bumpI x).reg r = s.reg r := rfl
@[simp] theorem State.bumpI_readByte (s : State) (x : Nibble) (a : Nat) : (s.bumpI x).readByte a = s.readByte a := rfl

/-! `State.setPc` -/

@[simp] theorem State.setPc_mem (s : State) (w : Word) : (s.setPc w).mem = s.mem := rfl
@[simp] theorem State.setPc_v (s : State) (w : Word) : (s.setPc w).v = s.v := rfl
@[simp] theorem State.setPc_i (s : State) (w : Word) : (s.setPc w).i = s.i := rfl
@[simp] theorem State.setPc_pc (s : State) (w : Word) : (s.setPc w).pc = w := rfl
@[simp] theorem State.setPc_slots (s : State) (w : Word) : (s.setPc w).slots = s.slots := rfl
@[simp] theorem State.setPc_sp (s : State) (w : Word) : (s.setPc w).sp = s.sp := rfl
@[simp] theorem State.setPc_delay (s : State) (w : Word) : (s.setPc w).delay = s.delay := rfl
@[simp] theorem State.setPc_sound (s : State) (w : Word) : (s.setPc w).sound = s.sound := rfl
@[simp] theorem State.setPc_fb (s : State) (w : Word) : (s.setPc w).fb = s.fb := rfl
@[simp] theorem State.setPc_status (s : State) (w : Word) : (s.setPc w).status = s.status := rfl
@[simp] theorem State.setPc_keys (s : State) (w : Word) : (s.setPc w).keys = s.keys := rfl
@[simp] theorem State.setPc_draws (s : State) (w : Word) : (s.setPc w).draws = s.draws := rfl
@[simp] theorem State.setPc_turns (s : State) (w : Word) : (s.setPc w).turns = s.turns := rfl
@[simp] theorem State.setPc_turnsDrawn (s : State) (w : Word) : (s.setPc w).turnsDrawn = s.turnsDrawn := rfl
@[simp] theorem State.setPc_cfg (s : State) (w : Word) : (s.setPc w).cfg = s.cfg := rfl
@[simp] theorem State.setPc_reg (s : State) (w : Word) (r : Nibble) : (s.setPc w).reg r = s.reg r := rfl
@[simp] theorem State.setPc_readByte (s : State) (w : Word) (a : Nat) : (s.setPc w).readByte a = s.readByte a := rfl

/-! `State.advance` -/

@[simp] theorem State.advance_mem (s : State) : (s.advance).mem = s.mem := rfl
@[simp] theorem State.advance_v (s : State) : (s.advance).v = s.v := rfl
@[simp] theorem State.advance_i (s : State) : (s.advance).i = s.i := rfl
@[simp] theorem State.advance_pc (s : State) : (s.advance).pc = s.pc + 2 := rfl
@[simp] theorem State.advance_slots (s : State) : (s.advance).slots = s.slots := rfl
@[simp] theorem State.advance_sp (s : State) : (s.advance).sp = s.sp := rfl
@[simp] theorem State.advance_delay (s : State) : (s.advance).delay = s.delay := rfl
@[simp] theorem State.advance_sound (s : State) : (s.advance).sound = s.sound := rfl
@[simp] theorem State.advance_fb (s : State) : (s.advance).fb = s.fb := rfl
@[simp] theorem State.advance_status (s : State) : (s.advance).status = s.status := rfl
@[simp] theorem State.advance_keys (s : State) : (s.advance).keys = s.keys := rfl
@[simp] theorem State.advance_draws (s : State) : (s.advance).draws = s.draws := rfl
@[simp] theorem State.advance_turns (s : State) : (s.advance).turns = s.turns := rfl
@[simp] theorem State.advance_turnsDrawn (s : State) : (s.advance).turnsDrawn = s.turnsDrawn := rfl
@[simp] theorem State.advance_cfg (s : State) : (s.advance).cfg = s.cfg := rfl
@[simp] theorem State.advance_reg (s : State) (r : Nibble) : (s.advance).reg r = s.reg r := rfl
@[simp] theorem State.advance_readByte (s : State) (a : Nat) : (s.advance).readByte a = s.readByte a := rfl

/-! `State.storeBytes` -/

@[simp] theorem State.storeBytes_mem (s : State) (a' : Nat) (bs : List Byte) : (s.storeBytes a' bs).mem = s.mem.writeBytes a' bs := rfl
@[simp] theorem State.storeBytes_v (s : State) (a' : Nat) (bs : List Byte) : (s.storeBytes a' bs).v = s.v := rfl
@[simp] theorem State.storeBytes_i (s : State) (a' : Nat) (bs : List Byte) : (s.storeBytes a' bs).i = s.i := rfl
@[simp] theorem State.storeBytes_pc (s : State) (a' : Nat) (bs : List Byte) : (s.storeBytes a' bs).pc = s.pc := rfl
@[simp] theorem State.storeBytes_slots (s : State) (a' : Nat) (bs : List Byte) : (s.storeBytes a' bs).slots = s.slots := rfl
@[simp] theorem State.storeBytes_sp (s : State) (a' : Nat) (bs : List Byte) : (s.storeBytes a' bs).sp = s.sp := rfl
@[simp] theorem State.storeBytes_delay (s : State) (a' : Nat) (bs : List Byte) : (s.storeBytes a' bs).delay = s.delay := rfl
@[simp] theorem State.storeBytes_sound (s : State) (a' : Nat) (bs : List Byte) : (s.storeBytes a' bs).sound = s.sound := rfl
@[simp] theorem State.storeBytes_fb (s : State) (a' : Nat) (bs : List Byte) : (s.storeBytes a' bs).fb = s.fb := rfl
@[simp] theorem State.storeBytes_status (s : State) (a' : Nat) (bs : List Byte) : (s.storeBytes a' bs).status = s.status := rfl
@[simp] theorem State.storeBytes_keys (s : State) (a' : Nat) (bs : List Byte) : (s.storeBytes a' bs).keys = s.keys := rfl
@[simp] theorem State.storeBytes_draws (s : State) (a' : Nat) (bs : List Byte) : (s.storeBytes a' bs).draws = s.draws := rfl
@[simp] theorem State.storeBytes_turns (s : State) (a' : Nat) (bs : List Byte) : (s.storeBytes a' bs).turns = s.turns := rfl
@[simp] theorem State.storeBytes_turnsDrawn (s : State) (a' : Nat) (bs : List Byte) : (s.storeBytes a' bs).turnsDrawn = s.turnsDrawn := rfl
@[simp] theorem State.storeBytes_cfg (s : State) (a' : Nat) (bs : List Byte) : (s.storeBytes a' bs).cfg = s.cfg := rfl
@[simp] theorem State.storeBytes_reg (s : State) (a' : Nat) (bs : List Byte) (r : Nibble) : (s.storeBytes a' bs).reg r = s.reg r := rfl

/-! `State.loadRegs` -/

@[simp] theorem State.loadRegs_mem (s : State) (x : Nibble) (a' : Nat) : (s.loadRegs x a').mem = s.mem := rfl
@[simp] theorem State.loadRegs_i (s : State) (x : Nibble) (a' : Nat) : (s.loadRegs x a').i = s.i := rfl
@[simp] theorem State.loadRegs_pc (s : State) (x : Nibble) (a' : Nat) : (s.loadRegs x a').pc = s.pc := rfl
@[simp] theorem State.loadRegs_slots (s : State) (x : Nibble) (a' : Nat) : (s.loadRegs x a').slots = s.slots := rfl
@[simp] theorem State.loadRegs_sp (s : State) (x : Nibble) (a' : Nat) : (s.loadRegs x a').sp = s.sp := rfl
@[simp] theorem State.loadRegs_delay (s : State) (x : Nibble) (a' : Nat) : (s.loadRegs x a').delay = s.delay := rfl
@[simp] theorem State.loadRegs_sound (s : State) (x : Nibble) (a' : Nat) : (s.loadRegs x a').sound = s.sound := rfl
@[simp] theorem State.loadRegs_fb (s : State) (x : Nibble) (a' : Nat) : (s.loadRegs x a').fb = s.fb := rfl
@[simp] theorem State.loadRegs_status (s : State) (x : Nibble) (a' : Nat) : (s.loadRegs x a').status = s.status := rfl
@[simp] theorem State.loadRegs_keys (s : State) (x : Nibble) (a' : Nat) : (s.loadRegs x a').keys = s.keys := rfl
@[simp] theorem State.loadRegs_draws (s : State) (x : Nibble) (a' : Nat) : (s.loadRegs x a').draws = s.draws := rfl
@[simp] theorem State.loadRegs_turns (s : State) (x : Nibble) (a' : Nat) : (s.loadRegs x a').turns = s.turns := rfl
@[simp] theorem State.loadRegs_turnsDrawn (s : State) (x : Nibble) (a' : Nat) : (s.loadRegs x a').turnsDrawn = s.turnsDrawn := rfl
@[simp] theorem State.loadRegs_cfg (s : State) (x : Nibble) (a' : Nat) : (s.loadRegs x a').cfg = s.cfg := rfl
@[simp] theorem State.loadRegs_readByte (s : State) (x : Nibble) (a' : Nat) (a : Nat) : (s.loadRegs x a').readByte a = s.readByte a := rfl

/-! `State.push` -/

@[simp] theorem State.push_mem (s : State) (w : Word) (h : s.sp.val < 16) : (s.push w h).mem = s.mem := rfl
@[simp] theorem State.push_v (s : State) (w : Word) (h : s.sp.val < 16) : (s.push w h).v = s.v := rfl
@[simp] theorem State.push_i (s : State) (w : Word) (h : s.sp.val < 16) : (s.push w h).i = s.i := rfl
@[simp] theorem State.push_pc (s : State) (w : Word) (h : s.sp.val < 16) : (s.push w h).pc = s.pc := rfl
@[simp] theorem State.push_slots (s : State) (w : Word) (h : s.sp.val < 16) : (s.push w h).slots = s.slots.set s.sp.val w h := rfl
@[simp] theorem State.push_delay (s : State) (w : Word) (h : s.sp.val < 16) : (s.push w h).delay = s.delay := rfl
@[simp] theorem State.push_sound (s : State) (w : Word) (h : s.sp.val < 16) : (s.push w h).sound = s.sound := rfl
@[simp] theorem State.push_fb (s : State) (w : Word) (h : s.sp.val < 16) : (s.push w h).fb = s.fb := rfl
@[simp] theorem State.push_status (s : State) (w : Word) (h : s.sp.val < 16) : (s.push w h).status = s.status := rfl
@[simp] theorem State.push_keys (s : State) (w : Word) (h : s.sp.val < 16) : (s.push w h).keys = s.keys := rfl
@[simp] theorem State.push_draws (s : State) (w : Word) (h : s.sp.val < 16) : (s.push w h).draws = s.draws := rfl
@[simp] theorem State.push_turns (s : State) (w : Word) (h : s.sp.val < 16) : (s.push w h).turns = s.turns := rfl
@[simp] theorem State.push_turnsDrawn (s : State) (w : Word) (h : s.sp.val < 16) : (s.push w h).turnsDrawn = s.turnsDrawn := rfl
@[simp] theorem State.push_cfg (s : State) (w : Word) (h : s.sp.val < 16) : (s.push w h).cfg = s.cfg := rfl
@[simp] theorem State.push_reg (s : State) (w : Word) (h : s.sp.val < 16) (r : Nibble) : (s.push w h).reg r = s.reg r := rfl
@[simp] theorem State.push_readByte (s : State) (w : Word) (h : s.sp.val < 16) (a : Nat) : (s.push w h).readByte a = s.readByte a := rfl

/-! `State.popPc` -/

@[simp] theorem State.popPc_mem (s : State) (k : Nat) (h : k < 16) : (s.popPc k h).mem = s.mem := rfl
@[simp] theorem State.popPc_v (s : State) (k : Nat) (h : k < 16) : (s.popPc k h).v = s.v := rfl
@[simp] theorem State.popPc_i (s : State) (k : Nat) (h : k < 16) : (s.popPc k h).i = s.i := rfl
@[simp] theorem State.popPc_pc (s : State) (k : Nat) (h : k < 16) : (s.popPc k h).pc = s.slots[k] := rfl
@[simp] theorem State.popPc_slots (s : State) (k : Nat) (h : k < 16) : (s.popPc k h).slots = s.slots := rfl
@[simp] theorem State.popPc_delay (s : State) (k : Nat) (h : k < 16) : (s.popPc k h).delay = s.delay := rfl
@[simp] theorem State.popPc_sound (s : State) (k : Nat) (h : k < 16) : (s.popPc k h).sound = s.sound := rfl
@[simp] theorem State.popPc_fb (s : State) (k : Nat) (h : k < 16) : (s.popPc k h).fb = s.fb := rfl
@[simp] theorem State.popPc_status (s : State) (k : Nat) (h : k < 16) : (s.popPc k h).status = s.status := rfl
@[simp] theorem State.popPc_keys (s : State) (k : Nat) (h : k < 16) : (s.popPc k h).keys = s.keys := rfl
@[simp] theorem State.popPc_draws (s : State) (k : Nat) (h : k < 16) : (s.popPc k h).draws = s.draws := rfl
@[simp] theorem State.popPc_turns (s : State) (k : Nat) (h : k < 16) : (s.popPc k h).turns = s.turns := rfl
@[simp] theorem State.popPc_turnsDrawn (s : State) (k : Nat) (h : k < 16) : (s.popPc k h).turnsDrawn = s.turnsDrawn := rfl
@[simp] theorem State.popPc_cfg (s : State) (k : Nat) (h : k < 16) : (s.popPc k h).cfg = s.cfg := rfl
@[simp] theorem State.popPc_reg (s : State) (k : Nat) (h : k < 16) (r : Nibble) : (s.popPc k h).reg r = s.reg r := rfl
@[simp] theorem State.popPc_readByte (s : State) (k : Nat) (h : k < 16) (a : Nat) : (s.popPc k h).readByte a = s.readByte a := rfl

/-! `State.setDelay` -/

@[simp] theorem State.setDelay_mem (s : State) (b : Byte) : (s.setDelay b).mem = s.mem := rfl
@[simp] theorem State.setDelay_v (s : State) (b : Byte) : (s.setDelay b).v = s.v := rfl
@[simp] theorem State.setDelay_i (s : State) (b : Byte) : (s.setDelay b).i = s.i := rfl
@[simp] theorem State.setDelay_pc (s : State) (b : Byte) : (s.setDelay b).pc = s.pc := rfl
@[simp] theorem State.setDelay_slots (s : State) (b : Byte) : (s.setDelay b).slots = s.slots := rfl
@[simp] theorem State.setDelay_sp (s : State) (b : Byte) : (s.setDelay b).sp = s.sp := rfl
@[simp] theorem State.setDelay_delay (s : State) (b : Byte) : (s.setDelay b).delay = b := rfl
@[simp] theorem State.setDelay_sound (s : State) (b : Byte) : (s.setDelay b).sound = s.sound := rfl
@[simp] theorem State.setDelay_fb (s : State) (b : Byte) : (s.setDelay b).fb = s.fb := rfl
@[simp] theorem State.setDelay_status (s : State) (b : Byte) : (s.setDelay b).status = s.status := rfl
@[simp] theorem State.setDelay_keys (s : State) (b : Byte) : (s.setDelay b).keys = s.keys := rfl
@[simp] theorem State.setDelay_draws (s : State) (b : Byte) : (s.setDelay b).draws = s.draws := rfl
@[simp] theorem State.setDelay_turns (s : State) (b : Byte) : (s.setDelay b).turns = s.turns := rfl
@[simp] theorem State.setDelay_turnsDrawn (s : State) (b : Byte) : (s.setDelay b).turnsDrawn = s.turnsDrawn := rfl
@[simp] theorem State.setDelay_cfg (s : State) (b : Byte) : (s.setDelay b).cfg = s.cfg := rfl
@[simp] theorem State.setDelay_reg (s : State) (b : Byte) (r : Nibble) : (s.setDelay b).reg r = s.reg r := rfl
@[simp] theorem State.setDelay_readByte (s : State) (b : Byte) (a : Nat) : (s.setDelay b).readByte a = s.readByte a := rfl

/-! `State.setSound` -/

@[simp] theorem State.setSound_mem (s : State) (b : Byte) : (s.setSound b).mem = s.mem := rfl
@[simp] theorem State.setSound_v (s : State) (b : Byte) : (s.setSound b).v = s.v := rfl
@[simp] theorem State.setSound_i (s : State) (b : Byte) : (s.setSound b).i = s.i := rfl
@[simp] theorem State.setSound_pc (s : State) (b : Byte) : (s.setSound b).pc = s.pc := rfl
@[simp] theorem State.setSound_slots (s : State) (b : Byte) : (s.setSound b).slots = s.slots := rfl
@[simp] theorem State.setSound_sp (s : State) (b : Byte) : (s.setSound b).sp = s.sp := rfl
@[simp] theorem State.setSound_delay (s : State) (b : Byte) : (s.setSound b).delay = s.delay := rfl
@[simp] theorem State.setSound_sound (s : State) (b : Byte) : (s.setSound b).sound = b := rfl
@[simp] theorem State.setSound_fb (s : State) (b : Byte) : (s.setSound b).fb = s.fb := rfl
@[simp] theorem State.setSound_status (s : State) (b : Byte) : (s.setSound b).status = s.status := rfl
@[simp] theorem State.setSound_keys (s : State) (b : Byte) : (s.setSound b).keys = s.keys := rfl
@[simp] theorem State.setSound_draws (s : State) (b : Byte) : (s.setSound b).draws = s.draws := rfl
@[simp] theorem State.setSound_turns (s : State) (b : Byte) : (s.setSound b).turns = s.turns := rfl
@[simp] theorem State.setSound_turnsDrawn (s : State) (b : Byte) : (s.setSound b).turnsDrawn = s.turnsDrawn := rfl
@[simp] theorem State.setSound_cfg (s : State) (b : Byte) : (s.setSound b).cfg = s.cfg := rfl
@[simp] theorem State.setSound_reg (s : State) (b : Byte) (r : Nibble) : (s.setSound b).reg r = s.reg r := rfl
@[simp] theorem State.setSound_readByte (s : State) (b : Byte) (a : Nat) : (s.setSound b).readByte a = s.readByte a := rfl

/-! `State.setFb` -/

@[simp] theorem State.setFb_mem (s : State) (fb : Framebuffer) : (s.setFb fb).mem = s.mem := rfl
@[simp] theorem State.setFb_v (s : State) (fb : Framebuffer) : (s.setFb fb).v = s.v := rfl
@[simp] theorem State.setFb_i (s : State) (fb : Framebuffer) : (s.setFb fb).i = s.i := rfl
@[simp] theorem State.setFb_pc (s : State) (fb : Framebuffer) : (s.setFb fb).pc = s.pc := rfl
@[simp] theorem State.setFb_slots (s : State) (fb : Framebuffer) : (s.setFb fb).slots = s.slots := rfl
@[simp] theorem State.setFb_sp (s : State) (fb : Framebuffer) : (s.setFb fb).sp = s.sp := rfl
@[simp] theorem State.setFb_delay (s : State) (fb : Framebuffer) : (s.setFb fb).delay = s.delay := rfl
@[simp] theorem State.setFb_sound (s : State) (fb : Framebuffer) : (s.setFb fb).sound = s.sound := rfl
@[simp] theorem State.setFb_fb (s : State) (fb : Framebuffer) : (s.setFb fb).fb = fb := rfl
@[simp] theorem State.setFb_status (s : State) (fb : Framebuffer) : (s.setFb fb).status = s.status := rfl
@[simp] theorem State.setFb_keys (s : State) (fb : Framebuffer) : (s.setFb fb).keys = s.keys := rfl
@[simp] theorem State.setFb_draws (s : State) (fb : Framebuffer) : (s.setFb fb).draws = s.draws := rfl
@[simp] theorem State.setFb_turns (s : State) (fb : Framebuffer) : (s.setFb fb).turns = s.turns := rfl
@[simp] theorem State.setFb_turnsDrawn (s : State) (fb : Framebuffer) : (s.setFb fb).turnsDrawn = s.turnsDrawn := rfl
@[simp] theorem State.setFb_cfg (s : State) (fb : Framebuffer) : (s.setFb fb).cfg = s.cfg := rfl
@[simp] theorem State.setFb_reg (s : State) (fb : Framebuffer) (r : Nibble) : (s.setFb fb).reg r = s.reg r := rfl
@[simp] theorem State.setFb_readByte (s : State) (fb : Framebuffer) (a : Nat) : (s.setFb fb).readByte a = s.readByte a := rfl

/-! `State.setStatus` -/

@[simp] theorem State.setStatus_mem (s : State) (st : Status) : (s.setStatus st).mem = s.mem := rfl
@[simp] theorem State.setStatus_v (s : State) (st : Status) : (s.setStatus st).v = s.v := rfl
@[simp] theorem State.setStatus_i (s : State) (st : Status) : (s.setStatus st).i = s.i := rfl
@[simp] theorem State.setStatus_pc (s : State) (st : Status) : (s.setStatus st).pc = s.pc := rfl
@[simp] theorem State.setStatus_slots (s : State) (st : Status) : (s.setStatus st).slots = s.slots := rfl
@[simp] theorem State.setStatus_sp (s : State) (st : Status) : (s.setStatus st).sp = s.sp := rfl
@[simp] theorem State.setStatus_delay (s : State) (st : Status) : (s.setStatus st).delay = s.delay := rfl
@[simp] theorem State.setStatus_sound (s : State) (st : Status) : (s.setStatus st).sound = s.sound := rfl
@[simp] theorem State.setStatus_fb (s : State) (st : Status) : (s.setStatus st).fb = s.fb := rfl
@[simp] theorem State.setStatus_status (s : State) (st : Status) : (s.setStatus st).status = st := rfl
@[simp] theorem State.setStatus_keys (s : State) (st : Status) : (s.setStatus st).keys = s.keys := rfl
@[simp] theorem State.setStatus_draws (s : State) (st : Status) : (s.setStatus st).draws = s.draws := rfl
@[simp] theorem State.setStatus_turns (s : State) (st : Status) : (s.setStatus st).turns = s.turns := rfl
@[simp] theorem State.setStatus_turnsDrawn (s : State) (st : Status) : (s.setStatus st).turnsDrawn = s.turnsDrawn := rfl
@[simp] theorem State.setStatus_cfg (s : State) (st : Status) : (s.setStatus st).cfg = s.cfg := rfl
@[simp] theorem State.setStatus_reg (s : State) (st : Status) (r : Nibble) : (s.setStatus st).reg r = s.reg r := rfl
@[simp] theorem State.setStatus_readByte (s : State) (st : Status) (a : Nat) : (s.setStatus st).readByte a = s.readByte a := rfl

/-! `State.raise` -/

@[simp] theorem State.raise_mem (s : State) (k : ErrorKind) (w : Option Word) : (s.raise k w).mem = s.mem := rfl
@[simp] theorem State.raise_v (s : State) (k : ErrorKind) (w : Option Word) : (s.raise k w).v = s.v := rfl
@[simp] theorem State.raise_i (s : State) (k : ErrorKind) (w : Option Word) : (s.raise k w).i = s.i := rfl
@[simp] theorem State.raise_pc (s : State) (k : ErrorKind) (w : Option Word) : (s.raise k w).pc = s.pc := rfl
@[simp] theorem State.raise_slots (s : State) (k : ErrorKind) (w : Option Word) : (s.raise k w).slots = s.slots := rfl
@[simp] theorem State.raise_sp (s : State) (k : ErrorKind) (w : Option Word) : (s.raise k w).sp = s.sp := rfl
@[simp] theorem State.raise_delay (s : State) (k : ErrorKind) (w : Option Word) : (s.raise k w).delay = s.delay := rfl
@[simp] theorem State.raise_sound (s : State) (k : ErrorKind) (w : Option Word) : (s.raise k w).sound = s.sound := rfl
@[simp] theorem State.raise_fb (s : State) (k : ErrorKind) (w : Option Word) : (s.raise k w).fb = s.fb := rfl
@[simp] theorem State.raise_status (s : State) (k : ErrorKind) (w : Option Word) : (s.raise k w).status = .halted ⟨k, some s.pc, w⟩ := rfl
@[simp] theorem State.raise_keys (s : State) (k : ErrorKind) (w : Option Word) : (s.raise k w).keys = s.keys := rfl
@[simp] theorem State.raise_draws (s : State) (k : ErrorKind) (w : Option Word) : (s.raise k w).draws = s.draws := rfl
@[simp] theorem State.raise_turns (s : State) (k : ErrorKind) (w : Option Word) : (s.raise k w).turns = s.turns := rfl
@[simp] theorem State.raise_turnsDrawn (s : State) (k : ErrorKind) (w : Option Word) : (s.raise k w).turnsDrawn = s.turnsDrawn := rfl
@[simp] theorem State.raise_cfg (s : State) (k : ErrorKind) (w : Option Word) : (s.raise k w).cfg = s.cfg := rfl
@[simp] theorem State.raise_reg (s : State) (k : ErrorKind) (w : Option Word) (r : Nibble) : (s.raise k w).reg r = s.reg r := rfl
@[simp] theorem State.raise_readByte (s : State) (k : ErrorKind) (w : Option Word) (a : Nat) : (s.raise k w).readByte a = s.readByte a := rfl

/-! `State.drawn` -/

@[simp] theorem State.drawn_mem (s : State) : (s.drawn).mem = s.mem := rfl
@[simp] theorem State.drawn_v (s : State) : (s.drawn).v = s.v := rfl
@[simp] theorem State.drawn_i (s : State) : (s.drawn).i = s.i := rfl
@[simp] theorem State.drawn_pc (s : State) : (s.drawn).pc = s.pc := rfl
@[simp] theorem State.drawn_slots (s : State) : (s.drawn).slots = s.slots := rfl
@[simp] theorem State.drawn_sp (s : State) : (s.drawn).sp = s.sp := rfl
@[simp] theorem State.drawn_delay (s : State) : (s.drawn).delay = s.delay := rfl
@[simp] theorem State.drawn_sound (s : State) : (s.drawn).sound = s.sound := rfl
@[simp] theorem State.drawn_fb (s : State) : (s.drawn).fb = s.fb := rfl
@[simp] theorem State.drawn_status (s : State) : (s.drawn).status = s.status := rfl
@[simp] theorem State.drawn_keys (s : State) : (s.drawn).keys = s.keys := rfl
@[simp] theorem State.drawn_draws (s : State) : (s.drawn).draws = s.draws + 1 := rfl
@[simp] theorem State.drawn_turns (s : State) : (s.drawn).turns = s.turns := rfl
@[simp] theorem State.drawn_turnsDrawn (s : State) : (s.drawn).turnsDrawn = s.turnsDrawn := rfl
@[simp] theorem State.drawn_cfg (s : State) : (s.drawn).cfg = s.cfg := rfl
@[simp] theorem State.drawn_reg (s : State) (r : Nibble) : (s.drawn).reg r = s.reg r := rfl
@[simp] theorem State.drawn_readByte (s : State) (a : Nat) : (s.drawn).readByte a = s.readByte a := rfl

/-! `State.tick` -/

@[simp] theorem State.tick_mem (s : State) : (s.tick).mem = s.mem := rfl
@[simp] theorem State.tick_v (s : State) : (s.tick).v = s.v := rfl
@[simp] theorem State.tick_i (s : State) : (s.tick).i = s.i := rfl
@[simp] theorem State.tick_pc (s : State) : (s.tick).pc = s.pc := rfl
@[simp] theorem State.tick_slots (s : State) : (s.tick).slots = s.slots := rfl
@[simp] theorem State.tick_sp (s : State) : (s.tick).sp = s.sp := rfl
@[simp] theorem State.tick_delay (s : State) : (s.tick).delay = tickTimer s.delay := rfl
@[simp] theorem State.tick_sound (s : State) : (s.tick).sound = tickTimer s.sound := rfl
@[simp] theorem State.tick_fb (s : State) : (s.tick).fb = s.fb := rfl
@[simp] theorem State.tick_status (s : State) : (s.tick).status = s.status := rfl
@[simp] theorem State.tick_keys (s : State) : (s.tick).keys = s.keys := rfl
@[simp] theorem State.tick_draws (s : State) : (s.tick).draws = s.draws := rfl
@[simp] theorem State.tick_turns (s : State) : (s.tick).turns = s.turns := rfl
@[simp] theorem State.tick_turnsDrawn (s : State) : (s.tick).turnsDrawn = s.turnsDrawn := rfl
@[simp] theorem State.tick_cfg (s : State) : (s.tick).cfg = s.cfg := rfl
@[simp] theorem State.tick_reg (s : State) (r : Nibble) : (s.tick).reg r = s.reg r := rfl
@[simp] theorem State.tick_readByte (s : State) (a : Nat) : (s.tick).readByte a = s.readByte a := rfl

/-! `State.setSchedule` -/

@[simp] theorem State.setSchedule_mem (s : State) (q : List Turn) (n : Nat) : (s.setSchedule q n).mem = s.mem := rfl
@[simp] theorem State.setSchedule_v (s : State) (q : List Turn) (n : Nat) : (s.setSchedule q n).v = s.v := rfl
@[simp] theorem State.setSchedule_i (s : State) (q : List Turn) (n : Nat) : (s.setSchedule q n).i = s.i := rfl
@[simp] theorem State.setSchedule_pc (s : State) (q : List Turn) (n : Nat) : (s.setSchedule q n).pc = s.pc := rfl
@[simp] theorem State.setSchedule_slots (s : State) (q : List Turn) (n : Nat) : (s.setSchedule q n).slots = s.slots := rfl
@[simp] theorem State.setSchedule_sp (s : State) (q : List Turn) (n : Nat) : (s.setSchedule q n).sp = s.sp := rfl
@[simp] theorem State.setSchedule_delay (s : State) (q : List Turn) (n : Nat) : (s.setSchedule q n).delay = s.delay := rfl
@[simp] theorem State.setSchedule_sound (s : State) (q : List Turn) (n : Nat) : (s.setSchedule q n).sound = s.sound := rfl
@[simp] theorem State.setSchedule_fb (s : State) (q : List Turn) (n : Nat) : (s.setSchedule q n).fb = s.fb := rfl
@[simp] theorem State.setSchedule_status (s : State) (q : List Turn) (n : Nat) : (s.setSchedule q n).status = s.status := rfl
@[simp] theorem State.setSchedule_keys (s : State) (q : List Turn) (n : Nat) : (s.setSchedule q n).keys = s.keys := rfl
@[simp] theorem State.setSchedule_draws (s : State) (q : List Turn) (n : Nat) : (s.setSchedule q n).draws = s.draws := rfl
@[simp] theorem State.setSchedule_turns (s : State) (q : List Turn) (n : Nat) : (s.setSchedule q n).turns = q := rfl
@[simp] theorem State.setSchedule_turnsDrawn (s : State) (q : List Turn) (n : Nat) : (s.setSchedule q n).turnsDrawn = n := rfl
@[simp] theorem State.setSchedule_cfg (s : State) (q : List Turn) (n : Nat) : (s.setSchedule q n).cfg = s.cfg := rfl
@[simp] theorem State.setSchedule_reg (s : State) (q : List Turn) (n : Nat) (r : Nibble) : (s.setSchedule q n).reg r = s.reg r := rfl
@[simp] theorem State.setSchedule_readByte (s : State) (q : List Turn) (n : Nat) (a : Nat) : (s.setSchedule q n).readByte a = s.readByte a := rfl

/-! `State.setKey` -/

@[simp] theorem State.setKey_mem (s : State) (k : Nibble) (d : Bool) : (s.setKey k d).mem = s.mem := rfl
@[simp] theorem State.setKey_v (s : State) (k : Nibble) (d : Bool) : (s.setKey k d).v = s.v := rfl
@[simp] theorem State.setKey_i (s : State) (k : Nibble) (d : Bool) : (s.setKey k d).i = s.i := rfl
@[simp] theorem State.setKey_pc (s : State) (k : Nibble) (d : Bool) : (s.setKey k d).pc = s.pc := rfl
@[simp] theorem State.setKey_slots (s : State) (k : Nibble) (d : Bool) : (s.setKey k d).slots = s.slots := rfl
@[simp] theorem State.setKey_sp (s : State) (k : Nibble) (d : Bool) : (s.setKey k d).sp = s.sp := rfl
@[simp] theorem State.setKey_delay (s : State) (k : Nibble) (d : Bool) : (s.setKey k d).delay = s.delay := rfl
@[simp] theorem State.setKey_sound (s : State) (k : Nibble) (d : Bool) : (s.setKey k d).sound = s.sound := rfl
@[simp] theorem State.setKey_fb (s : State) (k : Nibble) (d : Bool) : (s.setKey k d).fb = s.fb := rfl
@[simp] theorem State.setKey_status (s : State) (k : Nibble) (d : Bool) : (s.setKey k d).status = s.status := rfl
@[simp] theorem State.setKey_keys (s : State) (k : Nibble) (d : Bool) : (s.setKey k d).keys = s.keys.set k.toNat d k.isLt := rfl
@[simp] theorem State.setKey_draws (s : State) (k : Nibble) (d : Bool) : (s.setKey k d).draws = s.draws := rfl
@[simp] theorem State.setKey_turns (s : State) (k : Nibble) (d : Bool) : (s.setKey k d).turns = s.turns := rfl
@[simp] theorem State.setKey_turnsDrawn (s : State) (k : Nibble) (d : Bool) : (s.setKey k d).turnsDrawn = s.turnsDrawn := rfl
@[simp] theorem State.setKey_cfg (s : State) (k : Nibble) (d : Bool) : (s.setKey k d).cfg = s.cfg := rfl
@[simp] theorem State.setKey_reg (s : State) (k : Nibble) (d : Bool) (r : Nibble) : (s.setKey k d).reg r = s.reg r := rfl
@[simp] theorem State.setKey_readByte (s : State) (k : Nibble) (d : Bool) (a : Nat) : (s.setKey k d).readByte a = s.readByte a := rfl

/-! `State.push`, `State.popPc`: the depth -/

@[simp] theorem State.push_sp (s : State) (w : Word) (h : s.sp.val < 16) : ((s.push w h).sp).val = s.sp.val + 1 := rfl
@[simp] theorem State.popPc_sp (s : State) (k : Nat) (h : k < 16) : ((s.popPc k h).sp).val = k := rfl

/-! `State.skipIf` -/

/-- Everything a skip can do: `pc` goes four bytes on when the condition holds, two when not, and nothing else
changes. -/
theorem State.skipIf_eq (s : State) (c : Bool) : s.skipIf c = s.setPc (if c then s.pc + 4 else s.pc + 2) := by
  cases c
  · rfl
  · simp [State.skipIf, State.advanceSkip, State.setPc, BitVec.add_assoc]

/-! Registers -/

/-- A register reads what was last written to it. -/
@[simp] theorem State.setReg_reg_same (s : State) (x : Nibble) (b : Byte) : (s.setReg x b).reg x = b := by
  simp [State.setReg, State.reg]

/-- A write to one register leaves every other one alone. -/
theorem State.setReg_reg_other (s : State) {x r : Nibble} (b : Byte) (h : r ≠ x) : (s.setReg x b).reg r = s.reg r := by
  have : x.toNat ≠ r.toNat := fun e => h (BitVec.eq_of_toNat_eq e.symm)
  simp [State.setReg, State.reg, Vector.getElem_set_ne _ _ this]

/-- What any register reads after a write. -/
theorem State.setReg_reg (s : State) (x r : Nibble) (b : Byte) :
    (s.setReg x b).reg r = if r = x then b else s.reg r := by
  by_cases h : r = x
  · subst h
    simp
  · simp [State.setReg_reg_other s b h, h]

/-- What any register reads after a result and a flag are written: the flag wins (R22). -/
theorem State.setRegFlag_reg (s : State) (x r : Nibble) (b f : Byte) :
    (s.setRegFlag x b f).reg r = if r = regVF then f else if r = x then b else s.reg r := by
  simp [State.setRegFlag, State.setReg_reg]

/-- What any register reads after a block of registers is loaded (R186). -/
theorem State.loadRegs_reg (s : State) (x r : Nibble) (a : Nat) :
    (s.loadRegs x a).reg r = if r.toNat ≤ x.toNat then s.readByte (a + r.toNat) else s.reg r := by
  simp [State.loadRegs, State.reg]

/-! The keypad -/

/-- A key reads what was last set, every other key what it was. -/
theorem State.setKey_keyDown (s : State) (k j : Nibble) (d : Bool) :
    (s.setKey k d).keyDown j = if j = k then d else s.keyDown j := by
  by_cases h : j = k
  · subst h
    simp [State.keyDown, State.setKey]
  · have : k.toNat ≠ j.toNat := fun e => h (BitVec.eq_of_toNat_eq e.symm)
    simp [State.keyDown, State.setKey, Vector.getElem_set_ne _ _ this, h]

/-! `State.setTurns` -/

/-- Naming turns sets the schedule and leaves its free part where it is. -/
theorem State.setTurns_eq (s : State) (q : List Turn) : s.setTurns q = s.setSchedule q s.turnsDrawn := rfl

/-! What the fetch sees -/

@[simp] theorem State.setSchedule_fetchFails (s : State) (q : List Turn) (n : Nat) : (s.setSchedule q n).fetchFails = s.fetchFails := rfl
@[simp] theorem State.setStatus_fetchFails (s : State) (st : Status) : (s.setStatus st).fetchFails = s.fetchFails := rfl
@[simp] theorem State.raise_fetchFails (s : State) (k : ErrorKind) (w : Option Word) : (s.raise k w).fetchFails = s.fetchFails := rfl
@[simp] theorem State.setSchedule_wordAt (s : State) (q : List Turn) (n a : Nat) : (s.setSchedule q n).wordAt a = s.wordAt a := rfl
@[simp] theorem State.setStatus_wordAt (s : State) (st : Status) (a : Nat) : (s.setStatus st).wordAt a = s.wordAt a := rfl
@[simp] theorem State.raise_wordAt (s : State) (k : ErrorKind) (w : Option Word) (a : Nat) : (s.raise k w).wordAt a = s.wordAt a := rfl

/-- When the fetch fails (R101): past the last word, or odd where the parameter says so. -/
theorem State.fetchFails_iff (s : State) :
    s.fetchFails = true ↔ s.pc.toNat > 0xFFE ∨ (s.cfg.faultOnOddPC = true ∧ s.pc.toNat % 2 = 1) := by
  simp only [State.fetchFails, Bool.or_eq_true, decide_eq_true_eq, Bool.and_eq_true, BitVec.getLsbD,
    Nat.testBit_zero]

/-! The host actions -/

/-- Everything a key press can do (R214). -/
theorem State.keyPress_eq (s : State) (k : Nibble) :
    (∃ x, s.status = .waitKey x ∧
      s.keyPress k = (((s.setKey k true).setReg x (k.zeroExtend 8)).advance).setStatus .running) ∨
    ((∀ x, s.status ≠ .waitKey x) ∧ s.keyPress k = s.setKey k true) := by
  unfold State.keyPress
  split
  · next x h => exact .inl ⟨x, h, rfl⟩
  · next h => exact .inr ⟨h, rfl⟩

/-- Everything an abort can do (R261). -/
theorem State.abort_eq (s : State) :
    ((s.status = .running ∨ ∃ x, s.status = .waitKey x) ∧ s.abort = s.setStatus .stopped) ∨
    ((s.status = .stopped ∨ ∃ e, s.status = .halted e) ∧ s.abort = s) := by
  unfold State.abort
  split <;> simp_all

/-- A tick in numbers: one less, and 0 stays 0 (R251). -/
theorem tickTimer_toNat (b : Byte) : (tickTimer b).toNat = b.toNat - 1 := by
  unfold tickTimer
  split
  · simp_all
  · next h =>
    have : b.toNat ≠ 0 := fun e => h (BitVec.eq_of_toNat_eq e)
    rw [BitVec.toNat_sub_of_le]
    · rfl
    · simp only [BitVec.le_def]
      show 1 ≤ b.toNat
      omega

end Sys2Proof.Machine
end

