-- ==== Sys2Proof/Laws/Memory.lean ====
section
/-! SUPPORT. The laws of memory: a read after a write, blocks of bytes, and the canonical form. -/

namespace Sys2Proof.Machine

/-! Reading what was written -/

/-- What any address reads after a byte is listed. -/
theorem Memory.read_insert (m : Memory) (a k : Nat) (b : Byte) :
    (Memory.insert m a b).read k = if k = a then b else m.read k := by
  induction m with
  | nil => simp [Memory.insert, Memory.read, eq_comm]
  | cons c rest ih =>
    unfold Memory.insert
    split
    · simp [Memory.read, eq_comm]
    · split
      · next h => subst h; simp only [Memory.read, eq_comm]; split <;> simp_all
      · next hne =>
        simp only [Memory.read, ih]
        split
        · next hk => rw [if_neg (by omega)]
        · rfl

/-- What any address reads after one is made unlisted. -/
theorem Memory.read_erase (m : Memory) (a k : Nat) :
    (Memory.erase m a).read k = if k = a then Memory.unlisted a else m.read k := by
  induction m with
  | nil => simp only [Memory.erase, Memory.read, List.filter_nil]; split <;> simp_all
  | cons c rest ih =>
    simp only [Memory.erase, Memory.read] at ih ⊢
    by_cases h : c.1 = a
    · simp only [List.filter_cons, h, bne_self_eq_false, Bool.false_eq_true, if_false, ih]
      split
      · rfl
      · next hk => rw [if_neg (fun e => hk e.symm)]
    · simp only [List.filter_cons, bne_iff_ne, ne_eq, h, not_false_eq_true, if_true, Memory.read, ih]
      split <;> simp_all

/-- What any address reads after a write: the byte written there, its old byte elsewhere (R56, R61). -/
theorem Memory.read_write (m : Memory) (a k : Nat) (b : Byte) :
    (m.write a b).read k = if k = a then b else m.read k := by
  unfold Memory.write
  split
  · next h => rw [Memory.read_erase, h]
  · exact Memory.read_insert m a k b

/-- What any address reads after a block of bytes is written from `a` on. -/
theorem Memory.read_writeBytes (bs : List Byte) (m : Memory) (a k : Nat) :
    (m.writeBytes a bs).read k = if h : a ≤ k ∧ k - a < bs.length then bs[k - a]'h.2 else m.read k := by
  induction bs generalizing m a with
  | nil => simp [Memory.writeBytes]
  | cons b rest ih =>
    rw [Memory.writeBytes, ih]
    simp only [Memory.read_write, List.length_cons]
    by_cases hk : k = a
    · subst hk
      rw [dif_neg (by omega), if_pos rfl, dif_pos (by omega)]
      simp
    · by_cases h : a + 1 ≤ k ∧ k - (a + 1) < rest.length
      · have h' : a ≤ k ∧ k - a < rest.length + 1 := by omega
        have e : k - a = (k - (a + 1)) + 1 := by omega
        rw [dif_pos h, dif_pos h']
        simp [e]
      · have h' : ¬ (a ≤ k ∧ k - a < rest.length + 1) := by omega
        rw [dif_neg h, dif_neg h', if_neg hk]

/-- A block of bytes leaves every address outside it alone. -/
theorem Memory.read_writeBytes_outside (bs : List Byte) (m : Memory) {a k : Nat}
    (h : k < a ∨ a + bs.length ≤ k) : (m.writeBytes a bs).read k = m.read k := by
  rw [Memory.read_writeBytes, dif_neg (by omega)]

/-- A block of bytes is read back. -/
theorem Memory.read_writeBytes_inside (bs : List Byte) (m : Memory) (a : Nat) {j : Nat} (h : j < bs.length) :
    (m.writeBytes a bs).read (a + j) = bs[j] := by
  rw [Memory.read_writeBytes, dif_pos (by omega)]
  simp

/-- What any address reads after a store. -/
theorem State.readByte_storeBytes (s : State) (a k : Nat) (bs : List Byte) :
    (s.storeBytes a bs).readByte k = if h : a ≤ k ∧ k - a < bs.length then bs[k - a]'h.2 else s.readByte k :=
  Memory.read_writeBytes bs s.mem a k

/-! The canonical form -/

/-- The empty list is canonical. -/
theorem Memory.wf_nil : Memory.wf [] := by simp [Memory.wf]

/-- Listing a byte keeps the addresses rising. -/
theorem Memory.insert_sorted {m : Memory} (a : Nat) (b : Byte) (h : m.Pairwise (fun c d => c.1 < d.1)) :
    (Memory.insert m a b).Pairwise (fun c d => c.1 < d.1) ∧ ∀ c ∈ Memory.insert m a b, c = (a, b) ∨ c ∈ m := by
  induction m with
  | nil => simp [Memory.insert]
  | cons c rest ih =>
    obtain ⟨hc, hrest⟩ := List.pairwise_cons.1 h
    unfold Memory.insert
    split
    · next hlt =>
      refine ⟨List.pairwise_cons.2 ⟨?_, h⟩, by simp⟩
      intro d hd
      rcases List.mem_cons.1 hd with rfl | hd
      · exact hlt
      · exact Nat.lt_trans hlt (hc d hd)
    · split
      · next heq =>
        refine ⟨List.pairwise_cons.2 ⟨fun d hd => ?_, hrest⟩, ?_⟩
        · simpa [heq] using hc d hd
        · intro d hd
          rcases List.mem_cons.1 hd with rfl | hd
          · exact .inl rfl
          · exact .inr (List.mem_cons_of_mem _ hd)
      · next hlt hne =>
        obtain ⟨hs, hm⟩ := ih hrest
        refine ⟨List.pairwise_cons.2 ⟨fun d hd => ?_, hs⟩, ?_⟩
        · rcases hm d hd with rfl | hd
          · show c.1 < a
            omega
          · exact hc d hd
        · intro d hd
          rcases List.mem_cons.1 hd with rfl | hd
          · exact .inr (List.mem_cons_self ..)
          · exact (hm d hd).imp id (List.mem_cons_of_mem _)

/-- A write inside the address space keeps the canonical form. -/
theorem Memory.write_wf {m : Memory} {a : Nat} (b : Byte) (ha : a < Config.memSize) (h : m.wf) :
    (m.write a b).wf := by
  unfold Memory.write
  split
  · exact ⟨h.1.filter _, fun c hc => h.2 c (List.mem_filter.1 hc).1⟩
  · next hb =>
    obtain ⟨hs, hm⟩ := Memory.insert_sorted a b h.1
    refine ⟨hs, fun c hc => ?_⟩
    rcases hm c hc with rfl | hc
    · exact ⟨ha, hb⟩
    · exact h.2 c hc

/-- A block of bytes inside the address space keeps the canonical form. -/
theorem Memory.writeBytes_wf {m : Memory} (bs : List Byte) {a : Nat} (ha : a + bs.length ≤ Config.memSize)
    (h : m.wf) : (m.writeBytes a bs).wf := by
  induction bs generalizing m a with
  | nil => exact h
  | cons b rest ih =>
    simp only [List.length_cons] at ha
    exact ih (by omega) (Memory.write_wf b (by omega) h)

/-- In canonical form an address below every listed one reads as unlisted. -/
theorem Memory.read_of_lt {m : Memory} {a : Nat} (h : ∀ c ∈ m, a < c.1) : m.read a = Memory.unlisted a := by
  induction m with
  | nil => rfl
  | cons c rest ih =>
    have : c.1 ≠ a := by have := h c (List.mem_cons_self ..); omega
    rw [Memory.read, if_neg this]
    exact ih fun d hd => h d (List.mem_cons_of_mem _ hd)

/-- Canonical memories that read alike are the same list. -/
theorem Memory.eq_of_read {m n : Memory} (hm : m.wf) (hn : n.wf) (h : ∀ a, m.read a = n.read a) : m = n := by
  induction m generalizing n with
  | nil =>
    cases n with
    | nil => rfl
    | cons d n =>
      have := h d.1
      simp only [Memory.read, if_true] at this
      exact absurd this.symm (hn.2 d (List.mem_cons_self ..)).2
  | cons c m ih =>
    cases n with
    | nil =>
      have := h c.1
      simp only [Memory.read, if_true] at this
      exact absurd this (hm.2 c (List.mem_cons_self ..)).2
    | cons d n =>
      obtain ⟨hc, hm'⟩ := List.pairwise_cons.1 hm.1
      obtain ⟨hd, hn'⟩ := List.pairwise_cons.1 hn.1
      have hcu := (hm.2 c (List.mem_cons_self ..)).2
      have hdu := (hn.2 d (List.mem_cons_self ..)).2
      have key : c.1 = d.1 := by
        rcases Nat.lt_trichotomy c.1 d.1 with lt | eq | gt
        · have := h c.1
          rw [Memory.read, if_pos rfl, Memory.read_of_lt] at this
          · exact absurd this hcu
          · intro e he
            rcases List.mem_cons.1 he with rfl | he
            · exact lt
            · exact Nat.lt_trans lt (hd e he)
        · exact eq
        · have := h d.1
          rw [Memory.read_of_lt, Memory.read, if_pos rfl] at this
          · exact absurd this.symm hdu
          · intro e he
            rcases List.mem_cons.1 he with rfl | he
            · exact gt
            · exact Nat.lt_trans gt (hc e he)
      have hb : c.2 = d.2 := by
        have := h c.1
        rwa [Memory.read, if_pos rfl, Memory.read, if_pos key.symm] at this
      have hcd : c = d := Prod.ext key hb
      subst hcd
      congr 1
      refine ih ⟨hm', fun e he => hm.2 e (List.mem_cons_of_mem _ he)⟩
        ⟨hn', fun e he => hn.2 e (List.mem_cons_of_mem _ he)⟩ fun a => ?_
      by_cases ha : c.1 = a
      · subst ha
        rw [Memory.read_of_lt hc, Memory.read_of_lt hd]
      · have := h a
        rwa [Memory.read, if_neg ha, Memory.read, if_neg ha] at this

/-- The reset memory is canonical. -/
theorem State.reset_mem_wf : State.reset.mem.wf := Memory.wf_nil

/-- An address outside the address space is never listed. -/
theorem Memory.read_outside {m : Memory} {a : Nat} (h : m.wf) (ha : Config.memSize ≤ a) :
    m.read a = Memory.unlisted a := by
  induction m with
  | nil => rfl
  | cons d rest ih =>
    have hd := (h.2 d List.mem_cons_self).1
    rw [Memory.read, if_neg (by omega)]
    exact ih ⟨(List.pairwise_cons.1 h.1).2, fun e he => h.2 e (List.mem_cons_of_mem _ he)⟩

/-! The blocks the instructions move -/

/-- The font has 80 bytes (R52). -/
theorem fontGlyphs_length : fontGlyphs.length = 80 := by decide

/-- `V0` to `Vx` are `x + 1` bytes (R185). -/
theorem State.regsUpTo_length (s : State) (x : Nibble) : (s.regsUpTo x).length = x.toNat + 1 := by
  have := x.isLt
  simp only [State.regsUpTo, List.length_take, Vector.length_toList]
  omega

/-- Byte `k` of the block `V0` to `Vx` is `Vk` (R185). -/
theorem State.regsUpTo_getElem (s : State) (x k : Nibble) (h : k.toNat < (s.regsUpTo x).length) :
    (s.regsUpTo x)[k.toNat] = s.reg k := by
  simp [State.regsUpTo, State.reg]

/-- The decimal digits are three bytes (R184). -/
theorem bcdDigits_length (v : Byte) : (bcdDigits v).length = 3 := rfl

/-! The reset sequence -/

/-- Filled memory is canonical. -/
theorem Memory.filled_wf (b : Byte) : (Memory.filled b).wf := by
  have h : 0 + (List.replicate Config.memSize b).length ≤ Config.memSize := by rw [List.length_replicate]; omega
  exact Memory.writeBytes_wf _ h Memory.wf_nil

/-- What filled memory holds. -/
theorem Memory.read_filled (b : Byte) {a : Nat} (ha : a < Config.memSize) : (Memory.filled b).read a = b := by
  rw [Memory.filled, Memory.read_writeBytes, dif_pos ⟨Nat.zero_le a, by rw [List.length_replicate]; omega⟩,
    List.getElem_replicate]

/-- The font written over filled memory. -/
theorem State.fontInit_mem (p : InitValues) (c : Config) :
    ((State.create p c).fontInit p).mem = (Memory.filled p.memFill).writeBytes fontBase p.font.toList := by
  rw [State.fontInit, State.storeBytes, State.create]

/-- Memory before Load is canonical (R280). -/
theorem State.fontInit_mem_wf (p : InitValues) (c : Config) : ((State.create p c).fontInit p).mem.wf := by
  rw [State.fontInit_mem]
  exact Memory.writeBytes_wf _ (by rw [Vector.length_toList, fontBase, Config.memSize]; omega)
    (Memory.filled_wf p.memFill)

/-- What memory holds before Load: the font and, at every other address, the fill (R35, R280). -/
theorem State.fontInit_readByte (p : InitValues) (c : Config) {a : Nat} (ha : a < Config.memSize) :
    ((State.create p c).fontInit p).readByte a = if h : a < 80 then p.font[a] else p.memFill := by
  rw [State.readByte, State.fontInit_mem, Memory.read_writeBytes, Memory.read_filled _ ha]
  simp only [fontBase, Nat.zero_le, true_and, Nat.sub_zero, Vector.length_toList, Vector.getElem_toList]

/-- Memory before Load lists nothing at the decided parameters. -/
theorem State.fontInit_decided : ((State.create decidedInit Config.decided).fontInit decidedInit).mem = [] := by
  refine Memory.eq_of_read (State.fontInit_mem_wf _ _) Memory.wf_nil fun a => ?_
  by_cases ha : a < Config.memSize
  · refine (State.fontInit_readByte decidedInit Config.decided ha).trans ?_
    by_cases h : a < 80
    · rw [dif_pos h, Memory.read, Memory.unlisted, List.getElem?_eq_getElem (by rw [fontGlyphs_length]; exact h)]
      rfl
    · rw [dif_neg h, Memory.read, Memory.unlisted, List.getElem?_eq_none (by rw [fontGlyphs_length]; omega)]
      rfl
  · exact Memory.read_outside (State.fontInit_mem_wf _ _) (Nat.le_of_not_lt ha)

/-- Everything a reset sequence with a program that fits does after the font (R281). -/
theorem State.boot_eq (p : InitValues) (c : Config) {bytes : List Byte} (h : bytes.length ≤ Config.maxProgram) :
    State.boot p c bytes = ((((State.create p c).fontInit p).storeBytes Config.programBase bytes).setPc
      (BitVec.ofNat 16 Config.programBase)).setStatus .running := by
  rw [State.boot, State.load, if_neg (Nat.not_lt.2 h)]

/-- The reset sequence with a program of no bytes, at the decided parameters, ends in the reset state (R280,
R281). -/
theorem State.resetWith_decided : State.resetWith decidedInit Config.decided = State.reset := by
  have h := State.fontInit_decided
  rw [State.fontInit_mem] at h
  rw [State.resetWith, State.boot, State.fontInit, State.storeBytes, State.create]
  simp only [h]
  rfl

end Sys2Proof.Machine
end

