-- ==== Sys2Proof/Laws/Framebuffer.lean ====
section
/-! SUPPORT. The laws of the framebuffer: one pixel, and drawing a sprite as one XOR of the pixels it covers
(R165). -/

namespace Sys2Proof.Machine

/-- What any pixel is after one is toggled. -/
theorem Framebuffer.pixel_toggle (fb : Framebuffer) (q p : Fin 64 × Fin 32) :
    (fb.toggle q.1 q.2).pixel p.1 p.2 = (fb.pixel p.1 p.2 ^^ decide (q = p)) := by
  obtain ⟨px, py⟩ := q
  obtain ⟨qx, qy⟩ := p
  simp only [Framebuffer.pixel, Framebuffer.toggle, Prod.mk.injEq]
  by_cases hy : py = qy
  · subst hy
    have : decide (px.val = qx.val) = decide (px = qx) := by simp [Fin.ext_iff]
    simp [BitVec.getLsbD_xor, BitVec.getLsbD_twoPow, this, -BitVec.getLsbD_eq_getElem]
  · have : py.val ≠ qy.val := fun e => hy (Fin.ext e)
    simp [Vector.getElem_set_ne _ _ this, hy]

/-- Every pixel of the blank framebuffer is unset (R161). -/
theorem Framebuffer.pixel_blank (px : Fin 64) (py : Fin 32) : Framebuffer.blank.pixel px py = false := by
  simp [Framebuffer.pixel, Framebuffer.blank]

/-- Framebuffers that agree on every pixel are the same. -/
theorem Framebuffer.ext_pixel {a b : Framebuffer} (h : ∀ px py, a.pixel px py = b.pixel px py) : a = b := by
  apply Vector.ext
  intro j hj
  apply BitVec.eq_of_getLsbD_eq
  intro k hk
  exact h ⟨k, hk⟩ ⟨j, hj⟩

/-- One sprite pixel: its bit and where it lands. -/
abbrev SpriteCell := Bool × Fin 64 × Fin 32

/-- The sprite's pixels in the order the pseudocode of R162 visits them. -/
def spriteCells (s : State) (base : Nat) (xs ys : Byte) (n : Nat) : List SpriteCell :=
  (List.range n).flatMap fun row => (List.range 8).map fun col =>
    ((s.readByte (base + row)).getLsbD (7 - col), spriteColumn xs col, spriteRow ys row)

/-- Drawing the sprite is drawing its pixels one after the other. -/
theorem drawRows_eq (s : State) (base : Nat) (xs ys : Byte) (n : Nat) :
    drawRows s base xs ys n =
      (spriteCells s base xs ys n).foldl (fun d c => drawPixel c.1 c.2.1 c.2.2 d) ⟨s.fb, false⟩ := by
  simp [drawRows, spriteCells, drawRow, List.foldl_flatMap, List.foldl_map]

/-- No two pixels of a sprite land on the same place (R165). -/
theorem spriteCells_distinct (s : State) (base : Nat) (xs ys : Byte) (n : Nat) (hn : n ≤ 15) :
    (spriteCells s base xs ys n).Pairwise (fun c d => c.2 ≠ d.2) := by
  unfold spriteCells
  rw [List.pairwise_flatMap]
  constructor
  · intro row _
    rw [List.pairwise_map]
    refine List.Pairwise.imp_of_mem ?_ List.pairwise_lt_range
    intro a b ha hb hab e
    have e1 := congrArg (fun p : Fin 64 × Fin 32 => p.1.val) e
    simp only [spriteColumn, List.mem_range] at e1 ha hb
    omega
  · refine List.Pairwise.imp_of_mem ?_ List.pairwise_lt_range
    intro r r' hr hr' hlt c hc d hd e
    obtain ⟨a, _, rfl⟩ := List.mem_map.1 hc
    obtain ⟨b, _, rfl⟩ := List.mem_map.1 hd
    have e1 := congrArg (fun p : Fin 64 × Fin 32 => p.2.val) e
    simp only [spriteRow, List.mem_range] at e1 hr hr'
    omega

/-- Which pixels have a 1-bit of the sprite (R160, R162). -/
theorem mem_spriteCells (s : State) (base : Nat) (xs ys : Byte) (n : Nat) (p : Fin 64 × Fin 32) :
    (true, p) ∈ spriteCells s base xs ys n ↔
      ∃ row col : Nat, row < n ∧ col < 8 ∧ (s.readByte (base + row)).getLsbD (7 - col) = true ∧
        p.1.val = (xs.toNat + col) % 64 ∧ p.2.val = (ys.toNat + row) % 32 := by
  simp only [spriteCells, List.mem_flatMap, List.mem_map, List.mem_range, spriteColumn, spriteRow]
  constructor
  · rintro ⟨row, hr, col, hc, e⟩
    obtain ⟨px, py⟩ := p
    simp only [Prod.mk.injEq] at e
    obtain ⟨h1, h2, h3⟩ := e
    exact ⟨row, col, hr, hc, h1, by rw [← h2], by rw [← h3]⟩
  · rintro ⟨row, col, hr, hc, h1, h2, h3⟩
    refine ⟨row, hr, col, hc, ?_⟩
    obtain ⟨⟨px, hx⟩, ⟨py, hy⟩⟩ := p
    simp only at h2 h3
    subst h2 h3
    simp [h1]

/-- Drawing pixels at distinct places toggles exactly those with a 1-bit, and collides exactly when one of them
was set before. -/
theorem foldl_drawPixel (cells : List SpriteCell) (hd : cells.Pairwise (fun c d => c.2 ≠ d.2)) (d : Drawing) :
    (∀ p : Fin 64 × Fin 32, (cells.foldl (fun d c => drawPixel c.1 c.2.1 c.2.2 d) d).fb.pixel p.1 p.2 =
      (d.fb.pixel p.1 p.2 ^^ decide ((true, p) ∈ cells))) ∧
    ((cells.foldl (fun d c => drawPixel c.1 c.2.1 c.2.2 d) d).collision = true ↔
      d.collision = true ∨ ∃ p : Fin 64 × Fin 32, (true, p) ∈ cells ∧ d.fb.pixel p.1 p.2 = true) := by
  induction cells generalizing d with
  | nil => simp
  | cons c rest ih =>
    obtain ⟨hc, hrest⟩ := List.pairwise_cons.1 hd
    obtain ⟨ihp, ihc⟩ := ih hrest (drawPixel c.1 c.2.1 c.2.2 d)
    obtain ⟨bit, q⟩ := c
    have hq : (true, q) ∉ rest := fun hm => hc _ hm rfl
    cases bit with
    | false =>
      refine ⟨fun p => ?_, ?_⟩
      · rw [List.foldl_cons, ihp]
        simp [drawPixel]
      · rw [List.foldl_cons, ihc]
        simp [drawPixel]
    | true =>
      have hpix (p : Fin 64 × Fin 32) : (drawPixel true q.1 q.2 d).fb.pixel p.1 p.2 =
          (d.fb.pixel p.1 p.2 ^^ decide (q = p)) := Framebuffer.pixel_toggle d.fb q p
      refine ⟨fun p => ?_, ?_⟩
      · rw [List.foldl_cons, ihp, hpix]
        by_cases hp : q = p
        · subst hp
          simp [hq]
        · have : ¬ p = q := fun e => hp e.symm
          simp [hp, this]
      · rw [List.foldl_cons, ihc]
        simp only [drawPixel, if_true, Framebuffer.pixel_toggle, Bool.or_eq_true, List.mem_cons]
        constructor
        · rintro ((h | h) | ⟨p, hm, hp⟩)
          · exact .inl h
          · exact .inr ⟨q, .inl rfl, h⟩
          · have : q ≠ p := fun e => hq (e ▸ hm)
            exact .inr ⟨p, .inr hm, by simpa [this] using hp⟩
        · rintro (h | ⟨p, h | hm, hp⟩)
          · exact .inl (.inl h)
          · cases h
            exact .inl (.inr hp)
          · have : q ≠ p := fun e => hq (e ▸ hm)
            exact .inr ⟨p, hm, by simpa [this] using hp⟩

/-- Everything drawing a sprite can do (R162, R163, R165): it toggles exactly the covered pixels, and collides
exactly when one of them was set. -/
theorem drawRows_spec (s : State) (base : Nat) (xs ys : Byte) (n : Nat) (hn : n ≤ 15) :
    (∀ p : Fin 64 × Fin 32, (drawRows s base xs ys n).fb.pixel p.1 p.2 =
      (s.fb.pixel p.1 p.2 ^^ decide ((true, p) ∈ spriteCells s base xs ys n))) ∧
    ((drawRows s base xs ys n).collision = true ↔
      ∃ p : Fin 64 × Fin 32, (true, p) ∈ spriteCells s base xs ys n ∧ s.fb.pixel p.1 p.2 = true) := by
  rw [drawRows_eq]
  have h := foldl_drawPixel _ (spriteCells_distinct s base xs ys n hn) ⟨s.fb, false⟩
  exact ⟨h.1, by simpa using h.2⟩

end Sys2Proof.Machine
end

