-- ==== Sys2Proof/Laws/Exec.lean ====
section
/-! SUPPORT. What each operation that can raise does, and what an instruction, a core step and a step can do, said
once. -/

namespace Sys2Proof.Machine

/-! The range checks and the small register -/

/-- When `CheckRead` raises (R57). -/
theorem checkReadFails_iff (addr n : Nat) : checkReadFails addr n = true ↔ 1 ≤ n ∧ addr + n > 0x1000 := by
  simp only [checkReadFails, decide_eq_true_eq]
  omega

/-- When `CheckWrite` raises (R58). -/
theorem checkWriteFails_iff (limit addr n : Nat) :
    checkWriteFails limit addr n = true ↔ 1 ≤ n ∧ (addr + n > 0x1000 ∨ addr < limit) := by
  simp only [checkWriteFails, decide_eq_true_eq]
  omega

/-- A register above 15 is no index. -/
theorem State.smallReg_none (s : State) (x : Nibble) : s.smallReg x = none ↔ (s.reg x).toNat > 15 := by
  simp [State.smallReg]

/-- A register in `0..15` is the index of its value. -/
theorem State.smallReg_some (s : State) (x : Nibble) (k : Nibble) :
    s.smallReg x = some k ↔ (s.reg x).toNat = k.toNat := by
  unfold State.smallReg
  have := k.isLt
  split
  · simp
    omega
  · simp only [Option.some.injEq, ← BitVec.toNat_inj, BitVec.extractLsb'_toNat, Nat.shiftRight_zero]
    omega

/-! The stack -/

/-- `Call` on a stack with room (R107). -/
theorem execCall_room {nnn : Addr12} {s : State} (room : s.sp.val < 16) :
    execCall nnn s = .next ((s.push (s.pc + 2) room).setPc (zextAddr nnn)) := by
  simp [execCall, room]

/-- `Call` on a full stack (R107). -/
theorem execCall_full {nnn : Addr12} {s : State} (full : ¬ s.sp.val < 16) :
    execCall nnn s = raiseIn (.call nnn) .stackOverflow s := by
  simp [execCall, full]

/-- `Return` on an empty stack (R108). -/
theorem execReturn_empty {s : State} (h : s.sp.val = 0) : execReturn s = raiseIn .ret .stackUnderflow s := by
  unfold execReturn
  split
  · rfl
  · next k hk e => simp [e] at h

/-- `Return` on a stack that holds an entry (R108). -/
theorem execReturn_pop {s : State} {k : Nat} (h : s.sp.val = k + 1) (hk : k < 16) :
    execReturn s = .next (s.popPc k hk) := by
  unfold execReturn
  split
  · next e => simp [e] at h
  · next j hj e =>
    have : j = k := by simpa [e] using h
    subst this
    rfl

/-! What an instruction can do -/

/-- Everything an instruction can do to the status and to the inputs of a step: it raises an error (never
`ProgramTooLarge`, which only Load raises), or it is the key wait, or it leaves the status, the keypad, the schedule
and the parameters alone. It always answers a next state. -/
theorem exec_cases (i : Instr) (s : State) :
    (∃ k, k ≠ .programTooLarge ∧ exec i s = .next (s.raise k (some (encode i)))) ∨
    (∃ x, i = .waitKeyDownStore x ∧ exec i s = .next (s.setStatus (.waitKey x))) ∨
    (∃ t, exec i s = .next t ∧ t.status = s.status ∧ t.keys = s.keys ∧ t.turns = s.turns ∧ t.turnsDrawn = s.turnsDrawn ∧
      t.cfg = s.cfg) := by
  cases i with
  | ret =>
    show (∃ k, k ≠ ErrorKind.programTooLarge ∧ execReturn s = _) ∨ _ ∨ (∃ t, execReturn s = _ ∧ _)
    rcases Nat.eq_zero_or_eq_succ_pred s.sp.val with h | h
    · exact .inl ⟨_, by decide, execReturn_empty h⟩
    · have hk : s.sp.val.pred < 16 := by have := s.sp.isLt; omega
      exact .inr (.inr ⟨_, execReturn_pop h hk, rfl, rfl, rfl, rfl, rfl⟩)
  | call nnn =>
    show (∃ k, k ≠ ErrorKind.programTooLarge ∧ execCall nnn s = _) ∨ _ ∨ (∃ t, execCall nnn s = _ ∧ _)
    by_cases h : s.sp.val < 16
    · exact .inr (.inr ⟨_, execCall_room h, rfl, rfl, rfl, rfl, rfl⟩)
    · exact .inl ⟨_, by decide, execCall_full h⟩
  | waitKeyDownStore x => exact .inr (.inl ⟨x, rfl, rfl⟩)
  | drawSprite x y n =>
    simp only [exec, execDrawSprite]
    split
    · exact .inl ⟨.outOfBoundsAccess, by decide, rfl⟩
    · exact .inr (.inr ⟨_, rfl, rfl, rfl, rfl, rfl, rfl⟩)
  | storeBCD x =>
    simp only [exec, execStoreBCD]
    split
    · exact .inl ⟨.outOfBoundsAccess, by decide, rfl⟩
    · exact .inr (.inr ⟨_, rfl, rfl, rfl, rfl, rfl, rfl⟩)
  | copyRegisters x =>
    simp only [exec, execCopyRegisters]
    split
    · exact .inl ⟨.outOfBoundsAccess, by decide, rfl⟩
    · exact .inr (.inr ⟨_, rfl, rfl, rfl, rfl, rfl, rfl⟩)
  | fillRegisters x =>
    simp only [exec, execFillRegisters]
    split
    · exact .inl ⟨.outOfBoundsAccess, by decide, rfl⟩
    · exact .inr (.inr ⟨_, rfl, by simp, by simp, by simp, by simp, by simp⟩)
  | loadFontAddr x =>
    simp only [exec, execLoadFontAddr]
    split
    · exact .inl ⟨.outOfBoundsAccess, by decide, rfl⟩
    · exact .inr (.inr ⟨_, rfl, rfl, rfl, rfl, rfl, rfl⟩)
  | skipIfKeyDown x =>
    simp only [exec, execSkipIfKeyDown, State.skipIf_eq]
    split
    · exact .inl ⟨.outOfBoundsAccess, by decide, rfl⟩
    · exact .inr (.inr ⟨_, rfl, rfl, rfl, rfl, rfl, rfl⟩)
  | skipIfKeyNotDown x =>
    simp only [exec, execSkipIfKeyNotDown, State.skipIf_eq]
    split
    · exact .inl ⟨.outOfBoundsAccess, by decide, rfl⟩
    · exact .inr (.inr ⟨_, rfl, rfl, rfl, rfl, rfl, rfl⟩)
  | skipEqImm x nn =>
    simp only [exec, execSkipEqImm, State.skipIf_eq]
    exact .inr (.inr ⟨_, rfl, rfl, rfl, rfl, rfl, rfl⟩)
  | skipNeImm x nn =>
    simp only [exec, execSkipNeImm, State.skipIf_eq]
    exact .inr (.inr ⟨_, rfl, rfl, rfl, rfl, rfl, rfl⟩)
  | skipEqReg x y =>
    simp only [exec, execSkipEqReg, State.skipIf_eq]
    exact .inr (.inr ⟨_, rfl, rfl, rfl, rfl, rfl, rfl⟩)
  | skipNeReg x y =>
    simp only [exec, execSkipNeReg, State.skipIf_eq]
    exact .inr (.inr ⟨_, rfl, rfl, rfl, rfl, rfl, rfl⟩)
  | clear => exact .inr (.inr ⟨_, rfl, rfl, rfl, rfl, rfl, rfl⟩)
  | jump nnn => exact .inr (.inr ⟨_, rfl, rfl, rfl, rfl, rfl, rfl⟩)
  | jumpAddV0 nnn => exact .inr (.inr ⟨_, rfl, rfl, rfl, rfl, rfl, rfl⟩)
  | storeNnnInI nnn => exact .inr (.inr ⟨_, rfl, rfl, rfl, rfl, rfl, rfl⟩)
  | setImm x nn => exact .inr (.inr ⟨_, rfl, rfl, rfl, rfl, rfl, rfl⟩)
  | addImm x nn => exact .inr (.inr ⟨_, rfl, rfl, rfl, rfl, rfl, rfl⟩)
  | random x nn => exact .inr (.inr ⟨_, rfl, rfl, rfl, rfl, rfl, rfl⟩)
  | assign x y => exact .inr (.inr ⟨_, rfl, rfl, rfl, rfl, rfl, rfl⟩)
  | or x y => exact .inr (.inr ⟨_, rfl, rfl, rfl, rfl, rfl, rfl⟩)
  | and x y => exact .inr (.inr ⟨_, rfl, rfl, rfl, rfl, rfl, rfl⟩)
  | xor x y => exact .inr (.inr ⟨_, rfl, rfl, rfl, rfl, rfl, rfl⟩)
  | add x y => exact .inr (.inr ⟨_, rfl, rfl, rfl, rfl, rfl, rfl⟩)
  | sub x y => exact .inr (.inr ⟨_, rfl, rfl, rfl, rfl, rfl, rfl⟩)
  | shiftRight x y => exact .inr (.inr ⟨_, rfl, rfl, rfl, rfl, rfl, rfl⟩)
  | reverseSub x y => exact .inr (.inr ⟨_, rfl, rfl, rfl, rfl, rfl, rfl⟩)
  | shiftLeft x y => exact .inr (.inr ⟨_, rfl, rfl, rfl, rfl, rfl, rfl⟩)
  | loadDelay x => exact .inr (.inr ⟨_, rfl, rfl, rfl, rfl, rfl, rfl⟩)
  | setDelay x => exact .inr (.inr ⟨_, rfl, rfl, rfl, rfl, rfl, rfl⟩)
  | setSound x => exact .inr (.inr ⟨_, rfl, rfl, rfl, rfl, rfl, rfl⟩)
  | addToI x => exact .inr (.inr ⟨_, rfl, rfl, rfl, rfl, rfl, rfl⟩)

/-- Every instruction answers a next state: an error is one (R240). -/
theorem exec_next (i : Instr) (s : State) : ∃ t, exec i s = .next t := by
  rcases exec_cases i s with ⟨_, _, h⟩ | ⟨_, _, h⟩ | ⟨_, h, _⟩ <;> exact ⟨_, h⟩

/-- A next state that an answer gives. -/
theorem next_eq {s t : State} (h : (Host.Outcome.next s : Out) = .next t) : t = s := by
  cases h
  rfl

/-- Everything an instruction can do to memory: nothing, or one of the two stores, inside the address space and
at or above the write-protect limit (R58). -/
theorem exec_mem {i : Instr} {s t : State} (h : exec i s = .next t) : t.mem = s.mem ∨
    ∃ bs : List Byte, t.mem = s.mem.writeBytes s.baseAddr bs ∧ s.baseAddr + bs.length ≤ Config.memSize ∧
      s.cfg.writeProtectLimit ≤ s.baseAddr ∧
      ((∃ x, i = .storeBCD x ∧ bs = bcdDigits (s.reg x)) ∨ ∃ x, i = .copyRegisters x ∧ bs = s.regsUpTo x) := by
  cases i
  case ret =>
    rcases Nat.eq_zero_or_eq_succ_pred s.sp.val with h0 | h0
    · rw [exec, execReturn_empty h0] at h
      cases h
      exact .inl rfl
    · have hk : s.sp.val.pred < 16 := by have := s.sp.isLt; omega
      rw [exec, execReturn_pop h0 hk] at h
      cases h
      exact .inl rfl
  case storeBCD x =>
    simp only [exec, execStoreBCD, raiseIn] at h
    split at h <;> have h := next_eq h <;> subst h
    · exact .inl rfl
    · next hc =>
      rw [checkWriteFails_iff] at hc
      refine .inr ⟨_, rfl, ?_, ?_, .inl ⟨x, rfl, rfl⟩⟩
      · rw [bcdDigits_length, Config.memSize]
        omega
      · omega
  case copyRegisters x =>
    simp only [exec, execCopyRegisters, raiseIn] at h
    split at h <;> have h := next_eq h <;> subst h
    · exact .inl rfl
    · next hc =>
      rw [checkWriteFails_iff] at hc
      refine .inr ⟨_, rfl, ?_, ?_, .inr ⟨x, rfl, rfl⟩⟩
      · rw [State.regsUpTo_length, Config.memSize]
        omega
      · omega
  all_goals
    left
    simp only [exec, execClear, execDrawSprite, execJump, execCall, execJumpAddV0, execSkipEqImm, execSkipNeImm,
      execSkipEqReg, execSkipNeReg, execSetImm, execAddImm, execAssign, execOr, execAnd, execXor, execAdd, execSub,
      execShiftRight, execReverseSub, execShiftLeft, execRandom, execStoreNnnInI, execAddToI, execLoadFontAddr,
      execFillRegisters, execSkipIfKeyDown, execSkipIfKeyNotDown, execWaitKeyDownStore, execLoadDelay, execSetDelay,
      execSetSound, State.skipIf_eq, State.bumpI, raiseIn] at h
    (repeat' split at h) <;> (have h := next_eq h; subst h; rfl)

/-! What a core step and a step can do -/

/-- Everything a core step can do (R103): the fetch fails, the word does not decode, or the decoded instruction is
executed. -/
theorem State.coreStep_cases (s : State) :
    (s.fetchFails = true ∧ s.coreStep = .next (s.raise .outOfBoundsAccess none)) ∨
    (s.fetchFails = false ∧ (∃ e, decode s.cfg.strict59 (s.wordAt s.pc.toNat) = .error e) ∧
      s.coreStep = .next (s.raise .decodeFailure (some (s.wordAt s.pc.toNat)))) ∨
    (s.fetchFails = false ∧ ∃ i, decode s.cfg.strict59 (s.wordAt s.pc.toNat) = .ok i ∧ s.coreStep = exec i s) := by
  unfold State.coreStep
  cases hf : s.fetchFails
  · cases hd : decode s.cfg.strict59 (s.wordAt s.pc.toNat) with
    | error e => exact .inr (.inl ⟨rfl, ⟨e, rfl⟩, rfl⟩)
    | ok i => exact .inr (.inr ⟨rfl, i, rfl, rfl⟩)
  · exact .inl ⟨rfl, rfl⟩

/-- Everything a turn of the core can do (R100). -/
theorem State.coreTurn_cases (s : State) :
    (s.status = .running ∧ s.coreTurn = s.coreStep) ∨ (∃ x, s.status = .waitKey x ∧ s.coreTurn = .next s) ∨
    (∃ e, s.status = .halted e ∧ s.coreTurn = .fault (.coreHalted e)) ∨
    (s.status = .stopped ∧ s.coreTurn = .fault .coreStopped) := by
  unfold State.coreTurn
  cases h : s.status with
  | running => exact .inl ⟨rfl, rfl⟩
  | waitKey x => exact .inr (.inl ⟨x, rfl, rfl⟩)
  | halted e => exact .inr (.inr (.inl ⟨e, rfl, rfl⟩))
  | stopped => exact .inr (.inr (.inr ⟨rfl, rfl⟩))

/-- A running core's turn is its step. -/
theorem State.coreTurn_running {s : State} (h : s.status = .running) : s.coreTurn = s.coreStep := by
  simp [State.coreTurn, h]

/-- What a core turn that answers a next state has done: waited, halted with an error of the fetch or the decoder,
or executed the instruction. -/
theorem State.coreTurn_next {s t : State} (h : s.coreTurn = .next t) :
    (t = s ∧ ∃ x, s.status = .waitKey x) ∨
    (s.status = .running ∧ s.fetchFails = true ∧ t = s.raise .outOfBoundsAccess none) ∨
    (s.status = .running ∧ s.fetchFails = false ∧
      t = s.raise .decodeFailure (some (s.wordAt s.pc.toNat))) ∨
    (s.status = .running ∧ s.fetchFails = false ∧
      ∃ i, decode s.cfg.strict59 (s.wordAt s.pc.toNat) = .ok i ∧ exec i s = .next t) := by
  rcases s.coreTurn_cases with ⟨hr, h'⟩ | ⟨x, hx, h'⟩ | ⟨_, _, h'⟩ | ⟨_, h'⟩ <;> rw [h'] at h
  · rcases s.coreStep_cases with ⟨hf, hs⟩ | ⟨hf, _, hs⟩ | ⟨hf, i, hd, hs⟩ <;> rw [hs] at h
    · exact .inr (.inl ⟨hr, hf, next_eq h⟩)
    · exact .inr (.inr (.inl ⟨hr, hf, next_eq h⟩))
    · exact .inr (.inr (.inr ⟨hr, hf, i, hd, h⟩))
  · exact .inl ⟨next_eq h, x, hx⟩
  · cases h
  · cases h

/-- A step with no turn named takes the next one of the free schedule. -/
theorem step_free {s : State} (h : s.turns = []) :
    step s = (s.setSchedule [] (s.turnsDrawn + 1)).takeTurn (Config.schedule s.turnsDrawn) := by
  simp [step, State.nextTurn, h]

/-- A step with turns named takes the first of them. -/
theorem step_named {s : State} {t : Turn} {rest : List Turn} (h : s.turns = t :: rest) :
    step s = (s.setSchedule rest s.turnsDrawn).takeTurn t := by
  simp [step, State.nextTurn, h]

end Sys2Proof.Machine
end

