-- ==== Sys2Proof/Laws/Frames.lean ====
section
/-! SUPPORT. The laws of the statements' terms: frames compose and weaken, and a core turn keeps everything but the
schedule. -/

namespace Sys2Proof.Safety

open Sys2Proof.Machine

/-! Frames -/

/-- A part is the same as itself. -/
theorem Part.same_refl (f : Part) (s : State) : f.same s s := by
  cases f <;> simp [Part.same]

/-- A part that stays through two changes stays through both. -/
theorem Part.same_trans {f : Part} {s t u : State} (h : f.same s t) (h' : f.same t u) : f.same s u := by
  cases f <;> simp_all [Part.same]

/-- Nothing changes from a state to itself. -/
theorem SameExcept.refl (l : List Part) (s : State) : SameExcept l s s := fun f _ => f.same_refl s

/-- A frame that allows more. -/
theorem SameExcept.mono {l l' : List Part} {s t : State} (h : SameExcept l s t) (hl : ∀ f ∈ l, f ∈ l') :
    SameExcept l' s t := fun f hf => h f fun hm => hf (hl f hm)

/-- Frames compose. -/
theorem SameExcept.trans {l : List Part} {s t u : State} (h : SameExcept l s t) (h' : SameExcept l t u) :
    SameExcept l s u := fun f hf => Part.same_trans (h f hf) (h' f hf)

/-- Setting the status touches nothing else. -/
theorem sameExcept_setStatus (s : State) (st : Status) : SameExcept [.status] s (s.setStatus st) := by
  intro f hf
  cases f <;> simp_all [Part.same]

/-- Taking a turn off the schedule touches nothing else. -/
theorem sameExcept_setSchedule (s : State) (q : List Turn) (n : Nat) :
    SameExcept [.turns] s (s.setSchedule q n) := by
  intro f hf
  cases f <;> simp_all [Part.same]

/-- A tick touches the timers only (R251). -/
theorem sameExcept_tick (s : State) : SameExcept [.delay, .sound] s s.tick := by
  intro f hf
  cases f <;> simp_all [Part.same]

/-- A key going down or up touches the keypad only (R214, R262). -/
theorem sameExcept_setKey (s : State) (k : Nibble) (d : Bool) : SameExcept [.keys] s (s.setKey k d) := by
  intro f hf
  cases f <;> simp_all [Part.same]

/-! Turns -/

/-- A step takes the turn that is next. -/
theorem NextTurn.step_eq {s s' : State} {t : Turn} (h : NextTurn s t s') : step s = s'.takeTurn t := by
  rcases h with ⟨rest, h, rfl⟩ | ⟨h, rfl, rfl⟩
  · exact step_named h
  · exact step_free h

/-- Taking a turn off keeps everything but the schedule. -/
theorem NextTurn.eq_setSchedule {s s' : State} {t : Turn} (h : NextTurn s t s') :
    ∃ q n, s' = s.setSchedule q n := by
  rcases h with ⟨rest, _, rfl⟩ | ⟨_, _, rfl⟩
  · exact ⟨rest, _, rfl⟩
  · exact ⟨[], _, rfl⟩

/-- Some turn is always next: a run never ends for want of a turn (R263). -/
theorem exists_nextTurn (s : State) : ∃ t s', NextTurn s t s' := by
  cases h : s.turns with
  | nil => exact ⟨_, _, .inr ⟨h, rfl, rfl⟩⟩
  | cons t rest => exact ⟨t, _, .inl ⟨rest, h, rfl⟩⟩

/-- A step that takes a core turn is a turn of the core. -/
theorem CoreTurnNext.step_eq {s s' : State} (h : CoreTurnNext s s') : step s = s'.coreTurn := NextTurn.step_eq h

/-- A core turn keeps everything but the schedule. -/
theorem CoreTurnNext.eq_setSchedule {s s' : State} (h : CoreTurnNext s s') : ∃ q n, s' = s.setSchedule q n :=
  NextTurn.eq_setSchedule h

/-- Everything a step can do, for a statement about every step: a core turn, or a host action, from a state that
differs in the schedule only. -/
theorem step_turn_cases (s : State) : ∃ q n,
    (CoreTurnNext s (s.setSchedule q n) ∧ step s = (s.setSchedule q n).coreTurn) ∨
      step s = .next (s.setSchedule q n).tick ∨ (∃ k, step s = .next ((s.setSchedule q n).keyPress k)) ∨
      (∃ k, step s = .next ((s.setSchedule q n).keyRelease k)) ∨ step s = .next (s.setSchedule q n).abort := by
  obtain ⟨t, s', h⟩ := exists_nextTurn s
  obtain ⟨q, n, rfl⟩ := h.eq_setSchedule
  refine ⟨q, n, ?_⟩
  have hs := h.step_eq
  cases t with
  | core => exact .inl ⟨h, hs⟩
  | tick => exact .inr (.inl hs)
  | keyPress k => exact .inr (.inr (.inl ⟨k, hs⟩))
  | keyRelease k => exact .inr (.inr (.inr (.inl ⟨k, hs⟩)))
  | abort => exact .inr (.inr (.inr (.inr hs)))

/-- Under a fair schedule a core turn is still to come once the named turns are over (R263). -/
theorem FairSchedule.core_turn (h : FairSchedule) (s : State) : ∃ k, Config.schedule (s.turnsDrawn + k) = .core := by
  obtain ⟨m, hm, e⟩ := h s.turnsDrawn
  exact ⟨m - s.turnsDrawn, by rw [Nat.add_sub_cancel' hm, e]⟩

end Sys2Proof.Safety
end

