-- ==== Sys2Proof/Laws/PerInstr.lean ====
section
/-! SUPPORT. Per-instruction laws. `EncodeRow`: the encoding of an instruction selects that instruction's own row
of the opcode map (R81, R86). -/

namespace Sys2Proof

/-! Masking a word laid out by R71 masks its fields -/

theorem wordXYN_and (t x y n t' x' y' n' : Nibble) :
    wordXYN t x y n &&& wordXYN t' x' y' n' = wordXYN (t &&& t') (x &&& x') (y &&& y') (n &&& n') := by
  apply BitVec.eq_of_getLsbD_eq
  intro i hi
  simp only [wordXYN, BitVec.getLsbD_and, BitVec.getLsbD_append]
  split
  · split
    · split <;> rfl
    · rfl
  · rfl

theorem wordXNN_and (t x t' x' : Nibble) (nn nn' : Byte) :
    wordXNN t x nn &&& wordXNN t' x' nn' = wordXNN (t &&& t') (x &&& x') (nn &&& nn') := by
  apply BitVec.eq_of_getLsbD_eq
  intro i hi
  simp only [wordXNN, BitVec.getLsbD_and, BitVec.getLsbD_append]
  split
  · split <;> rfl
  · rfl

theorem wordNNN_and (t t' : Nibble) (nnn nnn' : Addr12) :
    wordNNN t nnn &&& wordNNN t' nnn' = wordNNN (t &&& t') (nnn &&& nnn') := by
  apply BitVec.eq_of_getLsbD_eq
  intro i hi
  simp only [wordNNN, BitVec.getLsbD_and, BitVec.getLsbD_append]
  split <;> rfl

/-- The row of a group whose word is `t x y k`, `k` fixed. -/
theorem mask_wordXYN (t x y n : Nibble) : wordXYN t x y n &&& 0xF00F = wordXYN t 0#4 0#4 n := by
  have e : (0xF00F : Word) = wordXYN 15 0#4 0#4 15 := by decide
  have h (a : Nibble) : a &&& 15 = a := BitVec.and_allOnes
  rw [e, wordXYN_and, h, h, BitVec.and_zero, BitVec.and_zero]

/-- The row of a group whose word is `t x kk`, `kk` fixed. -/
theorem mask_wordXNN (t x : Nibble) (nn : Byte) : wordXNN t x nn &&& 0xF0FF = wordXNN t 0#4 nn := by
  have e : (0xF0FF : Word) = wordXNN 15 0#4 255 := by decide
  have h (a : Nibble) : a &&& 15 = a := BitVec.and_allOnes
  have h' (a : Byte) : a &&& 255 = a := BitVec.and_allOnes
  rw [e, wordXNN_and, h, h', BitVec.and_zero]

/-- The row of a group of one instruction: only the top nibble is fixed. -/
theorem mask_wordNNN (t : Nibble) (nnn : Addr12) : wordNNN t nnn &&& 0xF000 = wordNNN t 0#12 := by
  have e : (0xF000 : Word) = wordNNN 15 0#12 := by decide
  have h (a : Nibble) : a &&& 15 = a := BitVec.and_allOnes
  rw [e, wordNNN_and, h, BitVec.and_zero]

theorem mask_wordXNN_top (t x : Nibble) (nn : Byte) : wordXNN t x nn &&& 0xF000 = wordXNN t 0#4 0#8 := by
  have e : (0xF000 : Word) = wordXNN 15 0#4 0#8 := by decide
  have h (a : Nibble) : a &&& 15 = a := BitVec.and_allOnes
  rw [e, wordXNN_and, h, BitVec.and_zero, BitVec.and_zero]

theorem mask_wordXYN_top (t x y n : Nibble) : wordXYN t x y n &&& 0xF000 = wordXYN t 0#4 0#4 0#4 := by
  have e : (0xF000 : Word) = wordXYN 15 0#4 0#4 0#4 := by decide
  have h (a : Nibble) : a &&& 15 = a := BitVec.and_allOnes
  rw [e, wordXYN_and, h, BitVec.and_zero, BitVec.and_zero, BitVec.and_zero]

/-- The row of R81 an instruction stands in. -/
def Laws.rowOf : Instr → OpcodeRow
  | .clear => ⟨0xFFFF, 0x00E0⟩
  | .ret => ⟨0xFFFF, 0x00EE⟩
  | .jump _ => ⟨0xF000, 0x1000⟩
  | .call _ => ⟨0xF000, 0x2000⟩
  | .skipEqImm _ _ => ⟨0xF000, 0x3000⟩
  | .skipNeImm _ _ => ⟨0xF000, 0x4000⟩
  | .skipEqReg _ _ => ⟨0xF00F, 0x5000⟩
  | .setImm _ _ => ⟨0xF000, 0x6000⟩
  | .addImm _ _ => ⟨0xF000, 0x7000⟩
  | .assign _ _ => ⟨0xF00F, 0x8000⟩
  | .or _ _ => ⟨0xF00F, 0x8001⟩
  | .and _ _ => ⟨0xF00F, 0x8002⟩
  | .xor _ _ => ⟨0xF00F, 0x8003⟩
  | .add _ _ => ⟨0xF00F, 0x8004⟩
  | .sub _ _ => ⟨0xF00F, 0x8005⟩
  | .shiftRight _ _ => ⟨0xF00F, 0x8006⟩
  | .reverseSub _ _ => ⟨0xF00F, 0x8007⟩
  | .shiftLeft _ _ => ⟨0xF00F, 0x800E⟩
  | .skipNeReg _ _ => ⟨0xF00F, 0x9000⟩
  | .storeNnnInI _ => ⟨0xF000, 0xA000⟩
  | .jumpAddV0 _ => ⟨0xF000, 0xB000⟩
  | .random _ _ => ⟨0xF000, 0xC000⟩
  | .drawSprite _ _ _ => ⟨0xF000, 0xD000⟩
  | .skipIfKeyDown _ => ⟨0xF0FF, 0xE09E⟩
  | .skipIfKeyNotDown _ => ⟨0xF0FF, 0xE0A1⟩
  | .loadDelay _ => ⟨0xF0FF, 0xF007⟩
  | .waitKeyDownStore _ => ⟨0xF0FF, 0xF00A⟩
  | .setDelay _ => ⟨0xF0FF, 0xF015⟩
  | .setSound _ => ⟨0xF0FF, 0xF018⟩
  | .addToI _ => ⟨0xF0FF, 0xF01E⟩
  | .loadFontAddr _ => ⟨0xF0FF, 0xF029⟩
  | .storeBCD _ => ⟨0xF0FF, 0xF033⟩
  | .copyRegisters _ => ⟨0xF0FF, 0xF055⟩
  | .fillRegisters _ => ⟨0xF0FF, 0xF065⟩

/-- The encoding of `i` selects `i`'s row of the opcode map. -/
def Laws.EncodeRow.Statement (i : Instr) : Prop :=
  Laws.rowOf i ∈ opcodeTable ∧ encode i &&& (Laws.rowOf i).mask = (Laws.rowOf i).value

theorem Laws.EncodeRow.clear : Laws.EncodeRow.Statement (.clear) :=
  ⟨by simp [Laws.rowOf, opcodeTable], by decide⟩

theorem Laws.EncodeRow.ret : Laws.EncodeRow.Statement (.ret) :=
  ⟨by simp [Laws.rowOf, opcodeTable], by decide⟩

theorem Laws.EncodeRow.jump (nnn : Addr12) : Laws.EncodeRow.Statement (.jump nnn) :=
  ⟨by simp [Laws.rowOf, opcodeTable], (mask_wordNNN 0x1#4 nnn).trans rfl⟩

theorem Laws.EncodeRow.call (nnn : Addr12) : Laws.EncodeRow.Statement (.call nnn) :=
  ⟨by simp [Laws.rowOf, opcodeTable], (mask_wordNNN 0x2#4 nnn).trans rfl⟩

theorem Laws.EncodeRow.skipEqImm (x : Nibble) (nn : Byte) : Laws.EncodeRow.Statement (.skipEqImm x nn) :=
  ⟨by simp [Laws.rowOf, opcodeTable], (mask_wordXNN_top 0x3#4 x nn).trans rfl⟩

theorem Laws.EncodeRow.skipNeImm (x : Nibble) (nn : Byte) : Laws.EncodeRow.Statement (.skipNeImm x nn) :=
  ⟨by simp [Laws.rowOf, opcodeTable], (mask_wordXNN_top 0x4#4 x nn).trans rfl⟩

theorem Laws.EncodeRow.skipEqReg (x y : Nibble) : Laws.EncodeRow.Statement (.skipEqReg x y) :=
  ⟨by simp [Laws.rowOf, opcodeTable], (mask_wordXYN 0x5#4 x y 0x0#4).trans rfl⟩

theorem Laws.EncodeRow.setImm (x : Nibble) (nn : Byte) : Laws.EncodeRow.Statement (.setImm x nn) :=
  ⟨by simp [Laws.rowOf, opcodeTable], (mask_wordXNN_top 0x6#4 x nn).trans rfl⟩

theorem Laws.EncodeRow.addImm (x : Nibble) (nn : Byte) : Laws.EncodeRow.Statement (.addImm x nn) :=
  ⟨by simp [Laws.rowOf, opcodeTable], (mask_wordXNN_top 0x7#4 x nn).trans rfl⟩

theorem Laws.EncodeRow.assign (x y : Nibble) : Laws.EncodeRow.Statement (.assign x y) :=
  ⟨by simp [Laws.rowOf, opcodeTable], (mask_wordXYN 0x8#4 x y 0x0#4).trans rfl⟩

theorem Laws.EncodeRow.or (x y : Nibble) : Laws.EncodeRow.Statement (.or x y) :=
  ⟨by simp [Laws.rowOf, opcodeTable], (mask_wordXYN 0x8#4 x y 0x1#4).trans rfl⟩

theorem Laws.EncodeRow.and (x y : Nibble) : Laws.EncodeRow.Statement (.and x y) :=
  ⟨by simp [Laws.rowOf, opcodeTable], (mask_wordXYN 0x8#4 x y 0x2#4).trans rfl⟩

theorem Laws.EncodeRow.xor (x y : Nibble) : Laws.EncodeRow.Statement (.xor x y) :=
  ⟨by simp [Laws.rowOf, opcodeTable], (mask_wordXYN 0x8#4 x y 0x3#4).trans rfl⟩

theorem Laws.EncodeRow.add (x y : Nibble) : Laws.EncodeRow.Statement (.add x y) :=
  ⟨by simp [Laws.rowOf, opcodeTable], (mask_wordXYN 0x8#4 x y 0x4#4).trans rfl⟩

theorem Laws.EncodeRow.sub (x y : Nibble) : Laws.EncodeRow.Statement (.sub x y) :=
  ⟨by simp [Laws.rowOf, opcodeTable], (mask_wordXYN 0x8#4 x y 0x5#4).trans rfl⟩

theorem Laws.EncodeRow.shiftRight (x y : Nibble) : Laws.EncodeRow.Statement (.shiftRight x y) :=
  ⟨by simp [Laws.rowOf, opcodeTable], (mask_wordXYN 0x8#4 x y 0x6#4).trans rfl⟩

theorem Laws.EncodeRow.reverseSub (x y : Nibble) : Laws.EncodeRow.Statement (.reverseSub x y) :=
  ⟨by simp [Laws.rowOf, opcodeTable], (mask_wordXYN 0x8#4 x y 0x7#4).trans rfl⟩

theorem Laws.EncodeRow.shiftLeft (x y : Nibble) : Laws.EncodeRow.Statement (.shiftLeft x y) :=
  ⟨by simp [Laws.rowOf, opcodeTable], (mask_wordXYN 0x8#4 x y 0xE#4).trans rfl⟩

theorem Laws.EncodeRow.skipNeReg (x y : Nibble) : Laws.EncodeRow.Statement (.skipNeReg x y) :=
  ⟨by simp [Laws.rowOf, opcodeTable], (mask_wordXYN 0x9#4 x y 0x0#4).trans rfl⟩

theorem Laws.EncodeRow.storeNnnInI (nnn : Addr12) : Laws.EncodeRow.Statement (.storeNnnInI nnn) :=
  ⟨by simp [Laws.rowOf, opcodeTable], (mask_wordNNN 0xA#4 nnn).trans rfl⟩

theorem Laws.EncodeRow.jumpAddV0 (nnn : Addr12) : Laws.EncodeRow.Statement (.jumpAddV0 nnn) :=
  ⟨by simp [Laws.rowOf, opcodeTable], (mask_wordNNN 0xB#4 nnn).trans rfl⟩

theorem Laws.EncodeRow.random (x : Nibble) (nn : Byte) : Laws.EncodeRow.Statement (.random x nn) :=
  ⟨by simp [Laws.rowOf, opcodeTable], (mask_wordXNN_top 0xC#4 x nn).trans rfl⟩

theorem Laws.EncodeRow.drawSprite (x y n : Nibble) : Laws.EncodeRow.Statement (.drawSprite x y n) :=
  ⟨by simp [Laws.rowOf, opcodeTable], (mask_wordXYN_top 0xD#4 x y n).trans rfl⟩

theorem Laws.EncodeRow.skipIfKeyDown (x : Nibble) : Laws.EncodeRow.Statement (.skipIfKeyDown x) :=
  ⟨by simp [Laws.rowOf, opcodeTable], (mask_wordXNN 0xE#4 x 0x9E#8).trans rfl⟩

theorem Laws.EncodeRow.skipIfKeyNotDown (x : Nibble) : Laws.EncodeRow.Statement (.skipIfKeyNotDown x) :=
  ⟨by simp [Laws.rowOf, opcodeTable], (mask_wordXNN 0xE#4 x 0xA1#8).trans rfl⟩

theorem Laws.EncodeRow.loadDelay (x : Nibble) : Laws.EncodeRow.Statement (.loadDelay x) :=
  ⟨by simp [Laws.rowOf, opcodeTable], (mask_wordXNN 0xF#4 x 0x07#8).trans rfl⟩

theorem Laws.EncodeRow.waitKeyDownStore (x : Nibble) : Laws.EncodeRow.Statement (.waitKeyDownStore x) :=
  ⟨by simp [Laws.rowOf, opcodeTable], (mask_wordXNN 0xF#4 x 0x0A#8).trans rfl⟩

theorem Laws.EncodeRow.setDelay (x : Nibble) : Laws.EncodeRow.Statement (.setDelay x) :=
  ⟨by simp [Laws.rowOf, opcodeTable], (mask_wordXNN 0xF#4 x 0x15#8).trans rfl⟩

theorem Laws.EncodeRow.setSound (x : Nibble) : Laws.EncodeRow.Statement (.setSound x) :=
  ⟨by simp [Laws.rowOf, opcodeTable], (mask_wordXNN 0xF#4 x 0x18#8).trans rfl⟩

theorem Laws.EncodeRow.addToI (x : Nibble) : Laws.EncodeRow.Statement (.addToI x) :=
  ⟨by simp [Laws.rowOf, opcodeTable], (mask_wordXNN 0xF#4 x 0x1E#8).trans rfl⟩

theorem Laws.EncodeRow.loadFontAddr (x : Nibble) : Laws.EncodeRow.Statement (.loadFontAddr x) :=
  ⟨by simp [Laws.rowOf, opcodeTable], (mask_wordXNN 0xF#4 x 0x29#8).trans rfl⟩

theorem Laws.EncodeRow.storeBCD (x : Nibble) : Laws.EncodeRow.Statement (.storeBCD x) :=
  ⟨by simp [Laws.rowOf, opcodeTable], (mask_wordXNN 0xF#4 x 0x33#8).trans rfl⟩

theorem Laws.EncodeRow.copyRegisters (x : Nibble) : Laws.EncodeRow.Statement (.copyRegisters x) :=
  ⟨by simp [Laws.rowOf, opcodeTable], (mask_wordXNN 0xF#4 x 0x55#8).trans rfl⟩

theorem Laws.EncodeRow.fillRegisters (x : Nibble) : Laws.EncodeRow.Statement (.fillRegisters x) :=
  ⟨by simp [Laws.rowOf, opcodeTable], (mask_wordXNN 0xF#4 x 0x65#8).trans rfl⟩

end Sys2Proof
end

