-- ==== Sys2Proof/Tests/Slice0.lean ====
section
/-! SUPPORT. Tests on single words and single steps, with expected results from the spec's vectors
(95_test_vectors.md), and for each statement with hypotheses a state and operands that meet them. -/

namespace Sys2Proof.Tests

open Sys2Proof.Machine Sys2Proof.Safety

/-! ### Helpers -/

/-- The reset state with the word at `0x200`: the start of every vector. -/
def ready (w : Nat) : State := State.reset.withFetchWord 16 w

/-- The reset state with a core turn named. -/
def start : State := State.reset.setTurns [.core]

/-- `ready w` after its core turn is taken off the schedule. -/
def taken (w : Nat) : State := (ready w).setTurns []

/-- Registers set to given values. -/
def withRegs (l : List (Nibble × Byte)) (s : State) : State := l.foldl (fun s p => s.setReg p.1 p.2) s

/-- The first `n` stack entries live, each holding `w`. -/
def withStack (n : Fin 17) (w : Word) (s : State) : State := { s with slots := Vector.replicate 16 w, sp := n }

/-- The state after one step, where there is one. -/
def next (s : State) : Option State :=
  match step s with
  | .next t => some t
  | _ => none

/-- The status of a core that halted. -/
def haltedAt (k : ErrorKind) (pc : Word) (w : Option Word) : Status := .halted ⟨k, some pc, w⟩

/-! ### Illegal words: one of each class of R83, refused by the check and rejected by name -/

theorem test_illegal_group0 : legalWord 0x0000 = false ∧ legalWord 0x0123 = false ∧ legalWord 0x00E1 = false := by
  decide
theorem test_illegal_group5 : legalWord 0x5121 = false := by decide
theorem test_illegal_group8 : legalWord 0x8128 = false ∧ legalWord 0x800F = false := by decide
theorem test_illegal_group9 : legalWord 0x912F = false := by decide
theorem test_illegal_groupE : legalWord 0xE59F = false ∧ legalWord 0xE000 = false := by decide
theorem test_illegal_groupF : legalWord 0xF156 = false ∧ legalWord 0xF0FF = false := by decide
theorem test_reject_group0 : decode true 0x0123 = .error .group0 := rfl
theorem test_reject_group5 : decode true 0x5121 = .error .group5 := rfl
theorem test_reject_group8 : decode true 0x8128 = .error .group8 := rfl
theorem test_reject_group9 : decode true 0x912F = .error .group9 := rfl
theorem test_reject_groupE : decode true 0xE59F = .error .groupE := rfl
theorem test_reject_groupF : decode true 0xF156 = .error .groupF := rfl
theorem test_reject_truncated : decodeBytes true [0x12] = .error .truncated := rfl

/-! ### Decoding: words written out from the patterns of R81 -/

theorem test_decode_group0 : decode true 0x00E0 = .ok .clear ∧ decode true 0x00EE = .ok .ret := ⟨rfl, rfl⟩
theorem test_decode_addresses : decode true 0x1ABC = .ok (.jump 0xABC) ∧ decode true 0x2300 = .ok (.call 0x300) ∧
    decode true 0xAFFF = .ok (.storeNnnInI 0xFFF) ∧ decode true 0xB300 = .ok (.jumpAddV0 0x300) :=
  ⟨rfl, rfl, rfl, rfl⟩
theorem test_decode_skips : decode true 0x3342 = .ok (.skipEqImm 3 0x42) ∧
    decode true 0x4342 = .ok (.skipNeImm 3 0x42) ∧ decode true 0x5120 = .ok (.skipEqReg 1 2) ∧
    decode true 0x9120 = .ok (.skipNeReg 1 2) := ⟨rfl, rfl, rfl, rfl⟩
theorem test_decode_immediates : decode true 0x6A5C = .ok (.setImm 0xA 0x5C) ∧
    decode true 0x71FF = .ok (.addImm 1 0xFF) ∧ decode true 0xC30F = .ok (.random 3 0x0F) := ⟨rfl, rfl, rfl⟩
theorem test_decode_group8 : decode true 0x8120 = .ok (.assign 1 2) ∧ decode true 0x8121 = .ok (.or 1 2) ∧
    decode true 0x8122 = .ok (.and 1 2) ∧ decode true 0x8123 = .ok (.xor 1 2) ∧
    decode true 0x8BC4 = .ok (.add 0xB 0xC) ∧ decode true 0x8125 = .ok (.sub 1 2) ∧
    decode true 0x8126 = .ok (.shiftRight 1 2) ∧ decode true 0x8127 = .ok (.reverseSub 1 2) ∧
    decode true 0x812E = .ok (.shiftLeft 1 2) := ⟨rfl, rfl, rfl, rfl, rfl, rfl, rfl, rfl, rfl⟩
theorem test_decode_draw : decode true 0xD7AF = .ok (.drawSprite 7 0xA 0xF) := rfl
theorem test_decode_groupE : decode true 0xE59E = .ok (.skipIfKeyDown 5) ∧
    decode true 0xE5A1 = .ok (.skipIfKeyNotDown 5) := ⟨rfl, rfl⟩
theorem test_decode_groupF : decode true 0xF407 = .ok (.loadDelay 4) ∧
    decode true 0xF30A = .ok (.waitKeyDownStore 3) ∧ decode true 0xF415 = .ok (.setDelay 4) ∧
    decode true 0xF418 = .ok (.setSound 4) ∧ decode true 0xF21E = .ok (.addToI 2) ∧
    decode true 0xFA29 = .ok (.loadFontAddr 0xA) ∧ decode true 0xF533 = .ok (.storeBCD 5) ∧
    decode true 0xF255 = .ok (.copyRegisters 2) ∧ decode true 0xFE65 = .ok (.fillRegisters 0xE) :=
  ⟨rfl, rfl, rfl, rfl, rfl, rfl, rfl, rfl, rfl⟩
/-- V-E10: re-encoding gives the same words. -/
theorem test_encode : encode (.drawSprite 7 0xA 0xF) = 0xD7AF ∧ encode (.add 0xB 0xC) = 0x8BC4 ∧
    encode (.fillRegisters 0xE) = 0xFE65 ∧ encode .clear = 0x00E0 ∧ encode (.skipIfKeyNotDown 5) = 0xE5A1 := by
  decide
/-- The bytes of a table word are taken high byte first (R54). -/
theorem test_decodeTableWord : decodeTableWord 16 0xD7AF = some (.drawSprite 7 0xA 0xF) ∧
    decodeTableWord 16 0x0123 = none := by decide

/-! ### Sequencer and control (95_test_vectors.md 2.1) -/

/-- V-J1. -/
theorem test_jump : (next (ready 0x1ABC)).map (·.pc) = some 0xABC := by decide
/-- V-C2: the 16th nested call succeeds. -/
theorem test_call : (next (withStack 15 0x202 (ready 0x2300))).map (fun t => (t.slots[15], t.sp, t.pc)) =
    some (0x202, 16, 0x300) := by decide
/-- V-C3: the 17th raises. -/
theorem test_call_full : (next (withStack 16 0x202 (ready 0x2300))).map (fun t => (t.status, t.sp, t.pc)) =
    some (haltedAt .stackOverflow 0x200 (some 0x2300), 16, 0x200) := by decide
/-- V-R1. -/
theorem test_return : (next (withStack 1 0x456 (ready 0x00EE))).map (fun t => (t.sp, t.pc)) = some (0, 0x456) := by
  decide
/-- V-R2. -/
theorem test_return_empty : (next (ready 0x00EE)).map (·.status) =
    some (haltedAt .stackUnderflow 0x200 (some 0x00EE)) := by decide
/-- V-B2: the largest `pc`. -/
theorem test_jumpAddV0 : (next (withRegs [(0, 0xFF)] (ready 0xBFFF))).map (·.pc) = some 0x10FE := by decide
/-- V-B3: the register is always `V0`. -/
theorem test_jumpAddV0_not_Vx : (next (withRegs [(0, 1), (2, 9)] (ready 0xB201))).map (·.pc) = some 0x202 := by decide
/-- V-S1, V-S2. -/
theorem test_skipEqImm : (next (withRegs [(3, 0x42)] (ready 0x3342))).map (·.pc) = some 0x204 ∧
    (next (withRegs [(3, 0x41)] (ready 0x3342))).map (·.pc) = some 0x202 := by decide
/-- V-S3, V-S4. -/
theorem test_skipNeImm : (next (withRegs [(3, 0x42)] (ready 0x4342))).map (·.pc) = some 0x202 ∧
    (next (withRegs [(3, 0x41)] (ready 0x4342))).map (·.pc) = some 0x204 := by decide
/-- V-S5, V-S6. -/
theorem test_skipEqReg : (next (withRegs [(1, 7), (2, 7)] (ready 0x5120))).map (·.pc) = some 0x204 ∧
    (next (withRegs [(1, 7), (2, 8)] (ready 0x5120))).map (·.pc) = some 0x202 := by decide
/-- V-S8, V-S9. -/
theorem test_skipNeReg : (next (withRegs [(1, 7), (2, 8)] (ready 0x9120))).map (·.pc) = some 0x204 ∧
    (next (withRegs [(1, 7), (2, 7)] (ready 0x9120))).map (·.pc) = some 0x202 := by decide
/-- V-S7: a word that does not decode. -/
theorem test_decodeFailure : (next (ready 0x5121)).map (fun t => (t.status, t.pc)) =
    some (haltedAt .decodeFailure 0x200 (some 0x5121), 0x200) := by decide
/-- The numbers of R240. -/
theorem test_errorCodes : [ErrorKind.decodeFailure, .stackOverflow, .stackUnderflow, .outOfBoundsAccess,
    .programTooLarge].map ErrorKind.code = [0, 1, 2, 3, 4] := by decide
/-- V-E1: from reset with no program the first core step reads `0x0000`. -/
theorem test_reset_step : (next start).map (·.status) =
    some (haltedAt .decodeFailure 0x200 (some 0x0000)) := by decide
/-- V-F2: a fetch past memory has no word. -/
theorem test_fetch_past_memory : (next (start.setPc 0x1000)).map (·.status) =
    some (haltedAt .outOfBoundsAccess 0x1000 none) := by decide
/-- V-F3: an odd fetch is legal, or halts where the parameter says so. -/
theorem test_fetch_odd : let s := (start.storeBytes 0x201 [0x12, 0x00]).setPc 0x201
    (next s).map (·.pc) = some 0x200 ∧
    (next { s with cfg := { s.cfg with faultOnOddPC := true } }).map (·.status) =
      some (haltedAt .outOfBoundsAccess 0x201 none) := by decide

/-! ### Register ALU (2.2) -/

/-- V-A1. -/
theorem test_setImm : (next (ready 0x6A5C)).map (fun t => (t.reg 0xA, t.pc)) = some (0x5C, 0x202) := by decide
/-- V-A3: no carry. -/
theorem test_addImm : (next (withRegs [(1, 0xFF)] (ready 0x7101))).map (fun t => (t.reg 1, t.reg 0xF)) = some (0, 0) := by
  decide
/-- V-A5. -/
theorem test_assign : (next (withRegs [(2, 0x33)] (ready 0x8120))).map (·.reg 1) = some 0x33 := by decide
/-- V-A6. -/
theorem test_or : (next (withRegs [(1, 0xF0), (2, 0x0F)] (ready 0x8121))).map (·.reg 1) = some 0xFF := by decide
/-- V-A7. -/
theorem test_and : (next (withRegs [(1, 0xF0), (2, 0x3C)] (ready 0x8122))).map (·.reg 1) = some 0x30 := by decide
/-- V-A8. -/
theorem test_xor : (next (withRegs [(1, 0xF0), (2, 0x3C)] (ready 0x8123))).map (·.reg 1) = some 0xCC := by decide
/-- V-A10. -/
theorem test_add : (next (withRegs [(1, 0xFF), (2, 1)] (ready 0x8124))).map (fun t => (t.reg 1, t.reg 0xF)) =
    some (0, 1) := by decide
/-- V-A13: the flag wins. -/
theorem test_add_VF : (next (withRegs [(0xF, 1), (2, 1)] (ready 0x8F24))).map (·.reg 0xF) = some 0 := by decide
/-- V-A14. -/
theorem test_sub : (next (withRegs [(1, 1), (2, 2)] (ready 0x8125))).map (fun t => (t.reg 1, t.reg 0xF)) =
    some (0xFF, 0) := by decide
/-- V-A15: equal means no borrow. -/
theorem test_sub_equal : (next (withRegs [(1, 5), (2, 5)] (ready 0x8125))).map (fun t => (t.reg 1, t.reg 0xF)) =
    some (0, 1) := by decide
/-- V-A19: the source is `Vy`. -/
theorem test_shiftRight : (next (withRegs [(1, 3), (2, 4)] (ready 0x8126))).map (fun t => (t.reg 1, t.reg 0xF)) =
    some (2, 0) := by decide
/-- V-A16. -/
theorem test_reverseSub : (next (withRegs [(1, 2), (2, 1)] (ready 0x8127))).map (fun t => (t.reg 1, t.reg 0xF)) =
    some (0xFF, 0) := by decide
/-- V-A20. -/
theorem test_shiftLeft : (next (withRegs [(2, 0x81)] (ready 0x812E))).map (fun t => (t.reg 1, t.reg 0xF)) =
    some (2, 1) := by decide
/-- V-A25: for every random byte; V-A24 with the byte left open. -/
theorem test_random : (next (ready 0xC300)).map (·.reg 3) = some (Config.rnd 0 &&& 0x00) ∧
    (next (ready 0xC30F)).map (fun t => (t.reg 3, t.draws)) = some (Config.rnd 0 &&& 0x0F, 1) := ⟨rfl, rfl⟩

/-! ### Display (2.3) -/

/-- V-D9. -/
theorem test_clear : (next ((ready 0x00E0).setFb (Vector.replicate 32 (BitVec.allOnes 64)))).map
    (fun t => (t.pixel 5 5, t.pixel 63 31)) = some (false, false) := by decide
/-- V-D3: columns wrap. -/
theorem test_draw_wraps : (next (((withRegs [(0, 60)] (ready 0xD011)).setI 0x300).storeBytes 0x300 [0xFF])).map
    (fun t => ([t.pixel 59 0, t.pixel 60 0, t.pixel 63 0, t.pixel 0 0, t.pixel 3 0, t.pixel 4 0], t.reg 0xF)) =
    some ([false, true, true, true, true, false], 0) := by decide
/-- V-D5: a set pixel becomes unset. -/
theorem test_draw_collision : (next ((((ready 0xD011).setI 0x300).storeBytes 0x300 [0x81]).setFb
    (Framebuffer.blank.toggle 7 0))).map (fun t => (t.pixel 0 0, t.pixel 7 0, t.reg 0xF)) = some (true, false, 1) := by
  decide

/-! ### Index register and memory blocks (2.4) -/

/-- V-I1. -/
theorem test_storeNnnInI : (next (ready 0xAFFF)).map (·.i) = some 0xFFF := by decide
/-- V-I4. -/
theorem test_addToI : (next (withRegs [(2, 1)] ((ready 0xF21E).setI 0xFFFF))).map (·.i) = some 0 := by decide
/-- V-I6. -/
theorem test_loadFontAddr : (next (withRegs [(0xA, 0xF)] (ready 0xFA29))).map (·.i) = some 0x04B := by decide
/-- V-I7. -/
theorem test_loadFontAddr_large : (next (withRegs [(0xA, 0x10)] (ready 0xFA29))).map (·.status) =
    some (haltedAt .outOfBoundsAccess 0x200 (some 0xFA29)) := by decide
/-- V-I8. -/
theorem test_storeBCD : (next (withRegs [(5, 234)] ((ready 0xF533).setI 0x300))).map
    (fun t => (t.readByte 0x300, t.readByte 0x301, t.readByte 0x302, t.i)) = some (2, 3, 4, 0x300) := by decide
/-- V-I12, V-I13. -/
theorem test_storeBCD_range : (next (withRegs [(5, 100)] ((ready 0xF533).setI 0xFFE))).map (·.status) =
    some (haltedAt .outOfBoundsAccess 0x200 (some 0xF533)) ∧
    (next (withRegs [(5, 1)] ((ready 0xF533).setI 0x1F0))).map (·.status) =
    some (haltedAt .outOfBoundsAccess 0x200 (some 0xF533)) := by decide
/-- V-I14. -/
theorem test_copyRegisters : (next (withRegs [(0, 1), (1, 2), (2, 3), (3, 9)] ((ready 0xF255).setI 0x300))).map
    (fun t => (t.readByte 0x300, t.readByte 0x301, t.readByte 0x302, t.readByte 0x303, t.i)) =
    some (1, 2, 3, 0, 0x303) := by decide
/-- V-I18. -/
theorem test_copyRegisters_protected : (next ((ready 0xF055).setI 0x100)).map (·.status) =
    some (haltedAt .outOfBoundsAccess 0x200 (some 0xF055)) := by decide
/-- V-I20: a read from the font. -/
theorem test_fillRegisters : (next ((ready 0xF465).setI 0x000)).map
    (fun t => ([t.reg 0, t.reg 1, t.reg 2, t.reg 3, t.reg 4, t.reg 5], t.i)) =
    some ([0xF0, 0x90, 0x90, 0x90, 0xF0, 0x00], 0x005) := by decide
/-- V-I21. -/
theorem test_fillRegisters_range : (next ((ready 0xF265).setI 0xFFE)).map (·.status) =
    some (haltedAt .outOfBoundsAccess 0x200 (some 0xF265)) := by decide

/-! ### Keypad, timers and host actions (2.5, 2.6) -/

/-- V-K1, V-K2. -/
theorem test_skipIfKeyDown : (next ((withRegs [(5, 0xC)] (ready 0xE59E)).setKey 0xC true)).map (·.pc) = some 0x204 ∧
    (next (withRegs [(5, 0xC)] (ready 0xE59E))).map (·.pc) = some 0x202 := by decide
/-- V-K5. -/
theorem test_skipIfKeyDown_large : (next (withRegs [(5, 0x10)] (ready 0xE59E))).map (·.status) =
    some (haltedAt .outOfBoundsAccess 0x200 (some 0xE59E)) := by decide
/-- V-K3, V-K4. -/
theorem test_skipIfKeyNotDown : (next (withRegs [(5, 0xC)] (ready 0xE5A1))).map (·.pc) = some 0x204 ∧
    (next ((withRegs [(5, 0xC)] (ready 0xE5A1)).setKey 0xC true)).map (·.pc) = some 0x202 := by decide
/-- V-K7. -/
theorem test_waitKeyDownStore : (next (ready 0xF30A)).map (fun t => (t.status, t.pc, t.reg 3)) =
    some (.waitKey 3, 0x200, 0) := by decide
/-- V-K8. -/
theorem test_keyPress : (next (((ready 0xF30A).setStatus (.waitKey 3)).setTurns [.keyPress 7])).map
    (fun t => (t.status, t.pc, t.reg 3, t.keyDown 7)) = some (.running, 0x202, 7, true) := by decide
/-- V-K10. -/
theorem test_abort : (next (((ready 0xF30A).setStatus (.waitKey 3)).setTurns [.abort])).map
    (fun t => (t.status, t.pc)) = some (.stopped, 0x200) := by decide
/-- V-T1. -/
theorem test_loadDelay : (next ((ready 0xF407).setDelay 0x3C)).map (·.reg 4) = some 0x3C := by decide
/-- V-T2. -/
theorem test_setDelay : (next (withRegs [(4, 0x3C)] (ready 0xF415))).map (·.delay) = some 0x3C := by decide
/-- V-T3. -/
theorem test_setSound : (next (withRegs [(4, 2)] (ready 0xF418))).map (fun t => (t.sound, t.soundSignal)) =
    some (2, true) := by decide
/-- V-T5, V-T6. -/
theorem test_tick : (next (((ready 0).setDelay 0).setTurns [.tick])).map (fun t => (t.delay, t.sound)) = some (0, 0) ∧
    (next ((((ready 0).setDelay 1).setSound 3).setTurns [.tick])).map (fun t => (t.delay, t.sound)) = some (0, 2) := by
  decide
/-- R281: Load copies a program to `0x200`. -/
theorem test_load : let s := start.load [0x1A, 0xBC]
    (s.readByte 0x200, s.readByte 0x201, s.readByte 0x202, s.readByte 0x04B, s.pc, s.status) =
      (0x1A, 0xBC, 0x00, 0xF0, 0x200, .running) ∧ (next s).map (·.pc) = some 0xABC := by decide
/-- V-E11: a program that is too long. -/
theorem test_load_too_long : (State.reset.load (List.replicate 3585 0)).status =
    .halted ⟨.programTooLarge, none, none⟩ := by
  rw [State.load, List.length_replicate]
  rfl
/-- The host's placing of a word makes the next step run it. -/
theorem test_withFetchWord : step (State.reset.withFetchWord 16 0xAFFF) =
    exec (.storeNnnInI 0xFFF) ((State.reset.withFetchWord 16 0xAFFF).setTurns []) := rfl
/-- R263: with no turn named the step takes the next of the free schedule, whichever it is. -/
theorem test_free_schedule : step State.reset =
    (State.reset.setSchedule [] 1).takeTurn (Config.schedule 0) := rfl

/-! ### Witnesses: states and operands that meet the hypotheses of the statements, clause by clause -/

theorem witness_EncodeOfDecode : decode true 0xD7AF = .ok (.drawSprite 7 0xA 0xF) := rfl
theorem witness_OpcodeRowsAreDisjoint : (⟨0xF00F, 0x5000⟩ : OpcodeRow) ∈ opcodeTable ∧
    (0x5120 : Word) &&& 0xF00F = 0x5000 := by decide
theorem witness_GroupZeroDecodesTwoWords : (0x00E0 : Word).toNat ≤ 0x0FFF ∧ (0x00EE : Word).toNat ≤ 0x0FFF ∧
    (0x0FFF : Word).toNat ≤ 0x0FFF ∧ (0x0FFF : Word) ≠ 0x00E0 ∧ (0x0FFF : Word) ≠ 0x00EE := by decide
theorem witness_AddressOperandsKeepTwelveBits : (0x1FFF : Word).toNat / 0x1000 = 0x1 ∧
    (0x2000 : Word).toNat / 0x1000 = 0x2 ∧ (0xAFFF : Word).toNat / 0x1000 = 0xA ∧
    (0xB000 : Word).toNat / 0x1000 = 0xB := by decide
theorem witness_LowNibbleOfGroupsFiveAndNine : ((5 : Nibble) = 5 ∨ (5 : Nibble) = 9) ∧
    ((9 : Nibble) = 5 ∨ (9 : Nibble) = 9) ∧ fieldT 0x4FFF ≠ 5 ∧ fieldT 0x4FFF ≠ 9 := by decide
theorem witness_StepRunsDecodedInstruction : CoreTurnNext (ready 0xAFFF) (taken 0xAFFF) ∧
    (ready 0xAFFF).status = .running ∧ (ready 0xAFFF).fetchFails = false ∧
    decode (ready 0xAFFF).cfg.strict59 ((ready 0xAFFF).wordAt (ready 0xAFFF).pc.toNat) = .ok (.storeNnnInI 0xFFF) :=
  ⟨.inl ⟨_, rfl, rfl⟩, rfl, rfl, rfl⟩
/-- A turn drawn from the free schedule, whichever it is. -/
theorem witness_NextTurn_free : NextTurn State.reset (Config.schedule 0) (State.reset.setSchedule [] 1) :=
  .inr ⟨rfl, rfl, rfl⟩
/-- A failing fetch at the least such address, one that succeeds at the greatest, and the odd one. -/
theorem witness_FetchFailureHalts : CoreTurnNext (start.setPc 0xFFF) (State.reset.setPc 0xFFF) ∧
    (start.setPc 0xFFF).status = .running ∧ (start.setPc 0xFFF).fetchFails = true ∧
    (State.reset.setPc 0xFFE).fetchFails = false ∧
    ({ State.reset.setPc 0x201 with cfg := ⟨true, true, 0x200⟩ } : State).fetchFails = true :=
  ⟨.inl ⟨_, rfl, rfl⟩, rfl, rfl, rfl, rfl⟩
theorem witness_DecodeFailureHalts : CoreTurnNext (ready 0x0123) (taken 0x0123) ∧
    (ready 0x0123).status = .running ∧ (ready 0x0123).fetchFails = false ∧
    decode (ready 0x0123).cfg.strict59 ((ready 0x0123).readByte (ready 0x0123).pc.toNat ++
      (ready 0x0123).readByte ((ready 0x0123).pc.toNat + 1)) = .error .group0 :=
  ⟨.inl ⟨_, rfl, rfl⟩, rfl, rfl, rfl⟩
/-- An error of the instruction, and one of the fetch. -/
theorem witness_ErrorsArePrecise : CoreTurnNext (ready 0x00EE) (taken 0x00EE) ∧ (ready 0x00EE).status = .running ∧
    (∃ t, step (ready 0x00EE) = .next t ∧ t.status = haltedAt .stackUnderflow 0x200 (some 0x00EE)) ∧
    ∃ t, step (start.setPc 0x1000) = .next t ∧ t.status = haltedAt .outOfBoundsAccess 0x1000 none :=
  ⟨.inl ⟨_, rfl, rfl⟩, rfl, ⟨_, rfl, rfl⟩, ⟨_, rfl, rfl⟩⟩
/-- A core turn in each of the other three statuses. -/
theorem witness_CoreStepsOnlyWhileRunning (st : Status) :
    CoreTurnNext (start.setStatus st) (State.reset.setStatus st) ∧ (start.setStatus st).status = st :=
  ⟨.inl ⟨_, rfl, rfl⟩, rfl⟩
theorem witness_TerminalStatesAreTerminal :
    (∃ t, step (((State.reset.setDelay 4).setStatus (haltedAt .stackUnderflow 0x200 (some 0x00EE))).setTurns [.tick]) =
      .next t ∧ t.delay = 3) ∧
    ∃ t, step ((State.reset.setStatus .stopped).setTurns [.keyPress 7]) = .next t ∧ t.keyDown 7 = true :=
  ⟨⟨_, rfl, rfl⟩, ⟨_, rfl, rfl⟩⟩
theorem witness_OutOfBoundsCauses : CoreTurnNext (start.setPc 0x1000) (State.reset.setPc 0x1000) ∧
    (start.setPc 0x1000).status = .running := ⟨.inl ⟨_, rfl, rfl⟩, rfl⟩
theorem witness_StackErrorsOnlyFromCallAndReturn : (withStack 16 0x202 State.reset).sp.val = 16 ∧
    State.reset.sp.val = 0 ∧ State.reset.status = .running ∧
    (∃ t, exec .ret State.reset = .next t ∧ t.status = haltedAt .stackUnderflow 0x200 (some 0x00EE)) ∧
    ∃ t, exec (.call 0x300) (withStack 16 0x202 State.reset) = .next t ∧
      t.status = haltedAt .stackOverflow 0x200 (some 0x2300) :=
  ⟨rfl, rfl, rfl, ⟨_, rfl, rfl⟩, ⟨_, rfl, rfl⟩⟩
theorem witness_OnlyControlTransfersWritePc : State.reset.status = .running ∧
    (∃ t, exec (.jump 0xABC) State.reset = .next t ∧ t.status = .running ∧ t.pc ≠ State.reset.pc + 2) ∧
    IsSkip (.skipIfKeyDown 5) ∧
    ∃ t, exec (.waitKeyDownStore 3) State.reset = .next t ∧ t.status = .waitKey 3 :=
  ⟨rfl, ⟨_, rfl, rfl, by decide⟩, ⟨5, 0, 0, by simp⟩, ⟨_, rfl, rfl⟩⟩
/-- The emptiest stack and the fullest with room. -/
theorem witness_CallPushesReturnAddress : State.reset.sp.val < 16 ∧ (withStack 15 0x202 State.reset).sp.val < 16 := by
  decide
/-- One live entry, and sixteen. -/
theorem witness_ReturnPopsTopEntry : (withStack 1 0x456 State.reset).sp.val = 0 + 1 ∧ 0 < 16 ∧
    (withStack 16 0x202 State.reset).sp.val = 15 + 1 ∧ 15 < 16 := by decide
theorem witness_ReturnUndoesCall : ∃ t, (withStack 15 0x202 State.reset).sp.val < 16 ∧
    exec (.call 0x300) (withStack 15 0x202 State.reset) = .next t ∧ t.sp = t.sp ∧
    ∀ k (h : k < 16), k < t.sp.val → t.slots[k] = t.slots[k] := ⟨_, by decide, rfl, rfl, fun _ _ _ => rfl⟩
/-- The greatest key index, and the least value that is none. -/
theorem witness_KeySkips : ((withRegs [(5, 0xF)] State.reset).reg 5).toNat < 16 ∧
    ((withRegs [(5, 0x10)] State.reset).reg 5).toNat > 15 := by decide
theorem witness_FlagWriters : (∃ t, exec (.shiftRight 1 2) (withRegs [(2, 3)] State.reset) = .next t ∧
      t.reg regVF ≠ (withRegs [(2, 3)] State.reset).reg regVF) ∧
    (∃ t, exec (.setImm 0xF 7) State.reset = .next t ∧ t.reg regVF ≠ State.reset.reg regVF) ∧
    ∃ t, exec (.drawSprite 0 1 5) State.reset = .next t ∧ t.pc = State.reset.pc + 2 :=
  ⟨⟨_, rfl, by decide⟩, ⟨_, rfl, by decide⟩, ⟨_, rfl, rfl⟩⟩
/-- The empty sprite past memory, and the tallest that ends at the last byte. -/
theorem witness_DrawSpriteXorsAndReportsCollision : ((0 : Nibble).toNat = 0 ∨ (State.reset.setI 0xFFFF).i.toNat + (0 : Nibble).toNat ≤ 0x1000) ∧
    ((0xF : Nibble).toNat = 0 ∨ (State.reset.setI 0xFF1).i.toNat + (0xF : Nibble).toNat ≤ 0x1000) := by decide
/-- Glyph 0 drawn at `(0, 0)` covers pixel `(0, 0)`, and neither covers nor finds set pixel `(4, 0)`. -/
theorem witness_SpriteCovers : SpriteCovers State.reset 0 0 0 5 0 0 ∧ ¬ SpriteCovers State.reset 0 0 0 1 4 0 := by
  refine ⟨⟨0, 0, by decide, by decide, by decide, by decide, by decide⟩, ?_⟩
  rintro ⟨row, col, hr, hc, hb, hx, _⟩
  obtain rfl : row = 0 := by omega
  have : (4 : Nat) = (0 + col) % 64 := hx
  obtain rfl : col = 4 := by omega
  exact absurd hb (by decide)
/-- A draw that sets pixels, and one over a set pixel. -/
theorem witness_DrawSpriteXorsAndReportsCollision_pixels : SpriteCovers State.reset 0 0 0 5 0 0 ∧
    (State.reset.setFb (Framebuffer.blank.toggle 0 0)).pixel 0 0 = true ∧ State.reset.pixel 0 0 = false :=
  ⟨witness_SpriteCovers.1, by decide, by decide⟩
theorem witness_SecondDrawUndoesFirst : ∃ t u, exec (.drawSprite 0 1 5) State.reset = .next t ∧
    t.pc = State.reset.pc + 2 ∧ t.reg 0 = State.reset.reg 0 ∧ t.reg 1 = State.reset.reg 1 ∧
    exec (.drawSprite 0 1 5) t = .next u := ⟨_, _, rfl, rfl, rfl, rfl, rfl⟩
theorem witness_OnlyDisplayInstructionsWriteFramebuffer : ∃ t, step (ready 0xD015) = .next t ∧
    t.fb ≠ (ready 0xD015).fb := ⟨_, rfl, by decide⟩
theorem witness_FontAddress : ((withRegs [(0xA, 0xF)] State.reset).reg 0xA).toNat ≤ 15 ∧
    ((withRegs [(0xA, 0x10)] State.reset).reg 0xA).toNat > 15 := by decide
/-- The last base address that passes, at the decided limit and with none. -/
theorem witness_StoreBcdResult : (State.reset.setI 0xFFD).i.toNat + 2 ≤ 0xFFF ∧
    (State.reset.setI 0xFFD).cfg.writeProtectLimit ≤ (State.reset.setI 0xFFD).i.toNat ∧
    (State.reset.setI 0x200).cfg.writeProtectLimit ≤ (State.reset.setI 0x200).i.toNat := by decide
/-- All sixteen registers into the last sixteen bytes, and one register at the limit. -/
theorem witness_CopyRegistersResult : (State.reset.setI 0xFF0).i.toNat + (0xF : Nibble).toNat ≤ 0xFFF ∧
    (State.reset.setI 0xFF0).cfg.writeProtectLimit ≤ (State.reset.setI 0xFF0).i.toNat ∧
    (State.reset.setI 0x200).i.toNat + (0 : Nibble).toNat ≤ 0xFFF ∧
    (State.reset.setI 0x200).cfg.writeProtectLimit ≤ (State.reset.setI 0x200).i.toNat := by decide
theorem witness_FillRegistersResult : (State.reset.setI 0xFF0).i.toNat + (0xF : Nibble).toNat ≤ 0xFFF ∧
    State.reset.i.toNat + (0 : Nibble).toNat ≤ 0xFFF := by decide
/-- Each cause, at the least value that has it. -/
theorem witness_RangeErrorsWriteNothing : OutOfBoundsCause (State.reset.setI 0x1000) (.drawSprite 0 1 1) ∧
    OutOfBoundsCause (State.reset.setI 0xFFE) (.storeBCD 5) ∧ OutOfBoundsCause (State.reset.setI 0x1FF) (.storeBCD 5) ∧
    OutOfBoundsCause (State.reset.setI 0xFF1) (.copyRegisters 0xF) ∧
    OutOfBoundsCause (State.reset.setI 0x1FF) (.copyRegisters 0) ∧
    OutOfBoundsCause (State.reset.setI 0xFFE) (.fillRegisters 2) ∧
    OutOfBoundsCause (withRegs [(5, 0x10)] State.reset) (.loadFontAddr 5) ∧
    OutOfBoundsCause (withRegs [(5, 0x10)] State.reset) (.skipIfKeyDown 5) ∧
    OutOfBoundsCause (withRegs [(5, 0x10)] State.reset) (.skipIfKeyNotDown 5) :=
  ⟨.inl ⟨0, 1, 1, rfl, by decide, by decide⟩, .inr (.inl ⟨5, rfl, .inl (by decide)⟩),
    .inr (.inl ⟨5, rfl, .inr (by decide)⟩), .inr (.inr (.inl ⟨0xF, rfl, .inl (by decide)⟩)),
    .inr (.inr (.inl ⟨0, rfl, .inr (by decide)⟩)), .inr (.inr (.inr (.inl ⟨2, rfl, by decide⟩))),
    .inr (.inr (.inr (.inr (.inl ⟨5, rfl, by decide⟩)))),
    .inr (.inr (.inr (.inr (.inr ⟨5, .inl rfl, by decide⟩)))),
    .inr (.inr (.inr (.inr (.inr ⟨5, .inr rfl, by decide⟩))))⟩
theorem witness_FillRestoresCopiedRegisters : ∃ t u, (State.reset.setI 0x300).i.toNat + (2 : Nibble).toNat ≤ 0xFFF ∧
    (State.reset.setI 0x300).cfg.writeProtectLimit ≤ (State.reset.setI 0x300).i.toNat ∧
    exec (.copyRegisters 2) (State.reset.setI 0x300) = .next t ∧ u = t.setI 0x300 ∧ u.mem = t.mem ∧
    u.i = (State.reset.setI 0x300).i := ⟨_, _, by decide, by decide, rfl, rfl, rfl, rfl⟩
/-- A key press in the wait, and one outside it. -/
theorem witness_KeyPressCompletesWait :
    NextTurn ((State.reset.setStatus (.waitKey 3)).setTurns [.keyPress 7]) (.keyPress 7)
      (State.reset.setStatus (.waitKey 3)) ∧
    ((State.reset.setStatus (.waitKey 3)).setTurns [.keyPress 7]).status = .waitKey 3 ∧
    NextTurn (State.reset.setTurns [.keyPress 0xF]) (.keyPress 0xF) State.reset ∧
    ∀ x, (State.reset.setTurns [.keyPress 0xF]).status ≠ .waitKey x :=
  ⟨.inl ⟨_, rfl, rfl⟩, rfl, .inl ⟨_, rfl, rfl⟩, fun _ h => by cases h⟩
theorem witness_TickDecrementsTimers : NextTurn (State.reset.setTurns [.tick]) .tick State.reset := .inl ⟨_, rfl, rfl⟩
/-- An abort in any status. -/
theorem witness_AbortStopsTheCore (st : Status) : NextTurn ((State.reset.setStatus st).setTurns [.abort]) .abort
    (State.reset.setStatus st) ∧ ((State.reset.setStatus st).setTurns [.abort]).status = st :=
  ⟨.inl ⟨_, rfl, rfl⟩, rfl⟩
theorem witness_KeyReleaseChangesKeypadOnly : NextTurn ((State.reset.setKey 7 true).setTurns [.keyRelease 7])
    (.keyRelease 7) (State.reset.setKey 7 true) ∧ (State.reset.setKey 7 true).keyDown 7 = true :=
  ⟨.inl ⟨_, rfl, rfl⟩, rfl⟩
/-- A store at the end of memory, from canonical memory. -/
theorem witness_StepKeepsMemoryCanonical : (State.reset.setI 0xFFD).mem.wf ∧
    ∃ t, step (withRegs [(5, 100)] ((ready 0xF533).setI 0xFFD)) = .next t ∧ t.readByte 0xFFD = 1 :=
  ⟨Memory.wf_nil, _, rfl, rfl⟩
/-- The greatest `pc`, where the fetch fails, and a wait at the last instruction that can be fetched. -/
theorem witness_StepKeepsPcBounded : PcBounded (start.setPc 0x10FE) ∧
    PcBounded ((State.reset.setPc 0xFFE).setStatus (.waitKey 3)) ∧
    ∃ t, step (start.setPc 0x10FE) = .next t ∧ t.pc = 0x10FE := by
  refine ⟨⟨by decide, ?_, ?_⟩, ⟨by decide, ?_, fun _ _ => by decide⟩, _, rfl, rfl⟩
  · intro k _ hk
    exact absurd hk (Nat.not_lt_zero k)
  · intro x h
    cases h
  · intro k _ hk
    exact absurd hk (Nat.not_lt_zero k)
/-- A running core, one halted by a failed fetch at which a tick is due, and one halted by a failed load. -/
theorem witness_StepKeepsHaltRecordFaithful : HaltRecordFaithful start ∧
    (∃ t, step start = .next t ∧ t.status = haltedAt .decodeFailure 0x200 (some 0x0000)) ∧
    HaltRecordFaithful (((State.reset.setPc 0x1000).setStatus (haltedAt .outOfBoundsAccess 0x1000 none)).setTurns
      [.tick]) ∧
    HaltRecordFaithful (State.reset.setStatus (.halted ⟨.programTooLarge, none, none⟩)) := by
  refine ⟨?_, ⟨_, rfl, rfl⟩, ?_, ?_⟩
  · intro e h
    cases h
  · intro e h
    cases h
    exact ⟨nofun, fun _ => ⟨rfl, rfl⟩⟩
  · intro e h
    cases h
    exact ⟨fun _ => ⟨rfl, rfl⟩, fun k => absurd rfl k⟩
/-- The empty program and the longest one, the ends of the font, of the fill and of the program. -/
theorem witness_ResetMeetsInvariants : ([] : List Byte).length ≤ 3584 ∧
    (List.replicate 3584 (0xFF : Byte)).length ≤ 3584 ∧ 3583 < (List.replicate 3584 (0xFF : Byte)).length ∧
    5 * 0 + 0 < 80 ∧ 5 * 15 + 4 < 80 ∧ (0x50 ≤ 0x50 ∧ 0x50 < 0x1000 ∧ 0x50 < 0x200) ∧
    (0x50 ≤ 0xFFF ∧ 0xFFF < 0x1000 ∧ 0x200 + ([] : List Byte).length ≤ 0xFFF) := by
  simp only [List.length_replicate, List.length_nil]
  omega
/-- The reset sequence takes its parameters: another fill is listed, and another font byte. -/
theorem test_parameters : let p := { decidedInit with memFill := 0xAA, font := Vector.replicate 80 0x55 }
    ((State.create p Config.decided).fontInit p).readByte 0x4F = 0x55 ∧
    ((State.create p Config.decided).fontInit p).readByte 0x50 = 0xAA := by
  refine ⟨?_, ?_⟩ <;> rw [State.fontInit_readByte _ _ (by decide)] <;> rfl
theorem witness_ProtectedMemoryNeverChanges : 0x1FF < (ready 0xAFFF).cfg.writeProtectLimit ∧
    ∃ t, step (ready 0xAFFF) = .next t ∧ t.i = 0xFFF := ⟨by decide, _, rfl, rfl⟩
theorem witness_TimersRiseOnlyWhenSet :
    (∃ t, step (withRegs [(4, 0x3C)] (ready 0xF415)) = .next t ∧
      t.delay.toNat > (withRegs [(4, 0x3C)] (ready 0xF415)).delay.toNat) ∧
    ∃ t, step (withRegs [(4, 2)] (ready 0xF418)) = .next t ∧
      t.sound.toNat > (withRegs [(4, 2)] (ready 0xF418)).sound.toNat := ⟨⟨_, rfl, by decide⟩, ⟨_, rfl, by decide⟩⟩
/-- Different slots, the one above the live entry of the other. -/
theorem witness_DeadStackSlotsUnobservable :
    SameLiveStack (withStack 1 0x456 State.reset)
      { withStack 1 0x456 State.reset with slots := (withStack 1 0x456 State.reset).slots.set 1 0 } := by
  refine ⟨rfl, fun k hk hlt => ?_⟩
  have : k < 1 := hlt
  obtain rfl : k = 0 := by omega
  rfl
theorem witness_KeypadReadOnlyByKeySkips : ∀ x : Nibble, Instr.waitKeyDownStore 3 ≠ .skipIfKeyDown x ∧
    Instr.waitKeyDownStore 3 ≠ .skipIfKeyNotDown x := by decide
theorem witness_SelfLoopIsQuiescent : CoreTurnNext (ready 0x1200) (taken 0x1200) ∧ AtSelfLoop (ready 0x1200) ∧
    (ready 0x1200).fetchFails = false :=
  ⟨.inl ⟨_, rfl, rfl⟩, ⟨rfl, by decide, 0x200, rfl, by decide⟩, rfl⟩
/-- The longest program that fits, the shortest that does not, and the bytes at both ends. -/
theorem witness_LoadCopiesOrHalts : (List.replicate 3584 (0xFF : Byte)).length ≤ 3584 ∧
    0 < (List.replicate 3584 (0xFF : Byte)).length ∧ 3583 < (List.replicate 3584 (0xFF : Byte)).length ∧
    (List.replicate 3585 (0xFF : Byte)).length > 3584 ∧ State.reset.mem.wf := by
  simp only [List.length_replicate]
  exact ⟨by decide, by decide, by decide, by decide, Memory.wf_nil⟩

end Sys2Proof.Tests
end

section
/-! The timer instructions (O44): the frames of an instruction that writes one register, or one part, and advances. -/

namespace Sys2Proof.Safety

open Sys2Proof.Machine

/-! Frames of single updates -/

/-- Writing a register touches the registers only. -/
theorem sameExcept_setReg (s : State) (x : Nibble) (b : Byte) : SameExcept [.v] s (s.setReg x b) := by
  intro f hf
  cases f <;> simp_all [Part.same]

/-- Setting the delay timer touches nothing else. -/
theorem sameExcept_setDelay (s : State) (b : Byte) : SameExcept [.delay] s (s.setDelay b) := by
  intro f hf
  cases f <;> simp_all [Part.same]

/-- Setting the sound timer touches nothing else. -/
theorem sameExcept_setSound (s : State) (b : Byte) : SameExcept [.sound] s (s.setSound b) := by
  intro f hf
  cases f <;> simp_all [Part.same]

/-- Fetch's advance touches `pc` only (R104). -/
theorem sameExcept_advance (s : State) : SameExcept [.pc] s s.advance := by
  intro f hf
  cases f <;> simp_all [Part.same]

/-- An update that keeps `pc` and all but the named parts, then the advance, is an instruction's frame. -/
theorem SameExcept.advanceFrame {l : List Part} {s u : State} (h : SameExcept l s u) (hpc : u.pc = s.pc) :
    AdvanceFrame l s u.advance := by
  refine ⟨by simp [hpc], (h.mono ?_).trans ((sameExcept_advance u).mono ?_)⟩ <;> simp +contextual

/-- An instruction that writes one register and advances. -/
theorem registerFrame_setReg_advance (s : State) (x : Nibble) (b : Byte) :
    RegisterFrame [x] s (s.setReg x b).advance := by
  obtain ⟨hpc, hframe⟩ := (sameExcept_setReg s x b).advanceFrame rfl
  refine ⟨hpc, fun r hr => ?_, hframe.mono (by simp)⟩
  exact s.setReg_reg_other b (List.ne_of_not_mem_cons hr)

/-- Settles O44: each of the three is one write, then the advance. -/
theorem timerInstructions : Obligations.TimerInstructions := by
  intro x s
  refine ⟨⟨_, rfl, ?_, registerFrame_setReg_advance s x s.delay⟩,
    ⟨_, rfl, rfl, (sameExcept_setDelay s (s.reg x)).advanceFrame rfl⟩,
    ⟨_, rfl, rfl, ?_, (sameExcept_setSound s (s.reg x)).advanceFrame rfl⟩⟩
  · exact s.setReg_reg_same x s.delay
  · simp [State.soundSignal]

end Sys2Proof.Safety
end

section
/-! The dead stack slots (O56): every operation but `Call` and `Return` leaves the call stack alone and reads no slot
of it; `Return` reads a live slot, and the slot `Call` writes is live from then on. -/

namespace Sys2Proof.Machine

/-! The instructions that read a register as an index: an error above 15, else what they do with the index -/

/-- R210, R211. -/
theorem exec_skipIfKeyDown_eq (x : Nibble) : exec (.skipIfKeyDown x) = fun s =>
    (s.smallReg x).elim (raiseIn (.skipIfKeyDown x) .outOfBoundsAccess s) fun k => .next (s.skipIf (s.keyDown k)) := by
  funext s
  simp only [exec, execSkipIfKeyDown]
  cases s.smallReg x <;> rfl

/-- R210, R212. -/
theorem exec_skipIfKeyNotDown_eq (x : Nibble) : exec (.skipIfKeyNotDown x) = fun s =>
    (s.smallReg x).elim (raiseIn (.skipIfKeyNotDown x) .outOfBoundsAccess s)
      fun k => .next (s.skipIf (!s.keyDown k)) := by
  funext s
  simp only [exec, execSkipIfKeyNotDown]
  cases s.smallReg x <;> rfl

/-- R183. -/
theorem exec_loadFontAddr_eq (x : Nibble) : exec (.loadFontAddr x) = fun s =>
    (s.smallReg x).elim (raiseIn (.loadFontAddr x) .outOfBoundsAccess s)
      fun d => .next (s.setI (glyphAddr d)).advance := by
  funext s
  simp only [exec, execLoadFontAddr]
  cases s.smallReg x <;> rfl

end Sys2Proof.Machine

namespace Sys2Proof.Safety

open Sys2Proof.Machine

/-- The operation always answers a next state, leaves the call stack as it is, and does the same whatever the slots
hold. -/
def LeavesStack (f : State → Out) : Prop :=
  ∀ (s : State) (slots : Vector Word 16), ∃ t, f s = .next t ∧ t.slots = s.slots ∧ t.sp = s.sp ∧
    f { s with slots := slots } = .next { t with slots := slots }

/-! Which operations leave the stack alone -/

/-- Raising an error leaves the stack alone (R244). -/
theorem leavesStack_raiseIn (i : Instr) (k : ErrorKind) : LeavesStack (raiseIn i k) :=
  fun _ _ => ⟨_, rfl, rfl, rfl, rfl⟩

/-- A skip on a condition that reads no slot leaves the stack alone. -/
theorem leavesStack_skipIf {c : State → Bool} (hc : ∀ s slots, c { s with slots := slots } = c s) :
    LeavesStack fun s => .next (s.skipIf (c s)) := by
  intro s slots
  simp only [State.skipIf_eq, hc]
  exact ⟨_, rfl, rfl, rfl, rfl⟩

/-- An operation that leaves the stack alone, behind a range check that reads no slot (R59). -/
theorem LeavesStack.checked {c : State → Bool} {f : State → Out} (i : Instr)
    (hc : ∀ s slots, c { s with slots := slots } = c s) (hf : LeavesStack f) :
    LeavesStack fun s => if c s then raiseIn i .outOfBoundsAccess s else f s := by
  intro s slots
  simp only [hc]
  cases c s with
  | true => exact leavesStack_raiseIn i _ s slots
  | false => exact hf s slots

/-- An operation that leaves the stack alone, on a register read as an index (R183, R210). -/
theorem LeavesStack.indexed {f : Nibble → State → Out} (i : Instr) (x : Nibble) (hf : ∀ d, LeavesStack (f d)) :
    LeavesStack fun s => (s.smallReg x).elim (raiseIn i .outOfBoundsAccess s) (f · s) := by
  intro s slots
  have hx : State.smallReg { s with slots := slots } x = s.smallReg x := rfl
  simp only [hx]
  cases s.smallReg x with
  | none => exact leavesStack_raiseIn i _ s slots
  | some d => exact hf d s slots

/-- Every instruction but `Call` and `Return` leaves the stack alone. -/
theorem leavesStack_exec {i : Instr} (hcall : ∀ nnn, i ≠ .call nnn) (hret : i ≠ .ret) : LeavesStack (exec i) := by
  cases i
  case call nnn => exact absurd rfl (hcall nnn)
  case ret => exact absurd rfl hret
  case skipEqImm x nn => exact leavesStack_skipIf (c := fun s => s.reg x == nn) fun _ _ => rfl
  case skipNeImm x nn => exact leavesStack_skipIf (c := fun s => s.reg x != nn) fun _ _ => rfl
  case skipEqReg x y => exact leavesStack_skipIf (c := fun s => s.reg x == s.reg y) fun _ _ => rfl
  case skipNeReg x y => exact leavesStack_skipIf (c := fun s => s.reg x != s.reg y) fun _ _ => rfl
  case skipIfKeyDown x =>
    rw [exec_skipIfKeyDown_eq]
    exact .indexed _ x fun k => leavesStack_skipIf fun _ _ => rfl
  case skipIfKeyNotDown x =>
    rw [exec_skipIfKeyNotDown_eq]
    exact .indexed _ x fun k => leavesStack_skipIf fun _ _ => rfl
  case loadFontAddr x =>
    rw [exec_loadFontAddr_eq]
    exact .indexed _ x fun _ _ _ => ⟨_, rfl, rfl, rfl, rfl⟩
  case drawSprite x y n =>
    exact .checked (c := fun s => checkReadFails s.baseAddr n.toNat) (.drawSprite x y n) (fun _ _ => rfl)
      fun _ _ => ⟨_, rfl, rfl, rfl, rfl⟩
  case storeBCD x =>
    exact .checked (c := fun s => checkWriteFails s.cfg.writeProtectLimit s.baseAddr 3) (.storeBCD x)
      (fun _ _ => rfl) fun _ _ => ⟨_, rfl, rfl, rfl, rfl⟩
  case copyRegisters x =>
    exact .checked (c := fun s => checkWriteFails s.cfg.writeProtectLimit s.baseAddr (x.toNat + 1))
      (.copyRegisters x) (fun _ _ => rfl) fun _ _ => ⟨_, rfl, rfl, rfl, rfl⟩
  case fillRegisters x =>
    exact .checked (c := fun s => checkReadFails s.baseAddr (x.toNat + 1)) (.fillRegisters x) (fun _ _ => rfl)
      fun s _ => ⟨((s.loadRegs x s.baseAddr).bumpI x).advance, rfl, by simp, by simp, rfl⟩
  all_goals exact fun _ _ => ⟨_, rfl, rfl, rfl, rfl⟩

/-- Every host action leaves the stack alone. -/
theorem leavesStack_takeTurn {u : Turn} (h : u ≠ .core) : LeavesStack (·.takeTurn u) := by
  intro s slots
  cases u with
  | core => exact absurd rfl h
  | tick => exact ⟨_, rfl, rfl, rfl, rfl⟩
  | keyRelease k => exact ⟨_, rfl, rfl, rfl, rfl⟩
  | keyPress k =>
    simp only [State.takeTurn, State.keyPress]
    split <;> exact ⟨_, rfl, rfl, rfl, rfl⟩
  | abort =>
    simp only [State.takeTurn, State.abort]
    split <;> exact ⟨_, rfl, rfl, rfl, rfl⟩

/-! States that differ in the dead slots only -/

/-- Such a state is the other one with slots that agree below `sp`. -/
theorem SameLiveStack.exists_slots {s t : State} (h : SameLiveStack s t) :
    ∃ slots : Vector Word 16, t = { s with slots := slots } ∧
      ∀ k (_ : k < 16), k < s.sp.val → slots[k] = s.slots[k] := ⟨t.slots, h⟩

/-- An operation that leaves the stack alone keeps the two states so. -/
theorem LeavesStack.related {f : State → Out} (hf : LeavesStack f) {s t : State} (h : SameLiveStack s t) :
    RelatedOutcomes SameLiveStack (f s) (f t) := by
  obtain ⟨slots, rfl, hlive⟩ := h.exists_slots
  obtain ⟨u, hs, hslots, hsp, ht⟩ := hf s slots
  refine .inl ⟨u, _, hs, ht, rfl, ?_⟩
  simpa only [hslots, hsp] using hlive

/-- `Call` pushes the same address on both, at the first dead slot (R107). -/
theorem execCall_related (nnn : Addr12) {s t : State} (h : SameLiveStack s t) :
    RelatedOutcomes SameLiveStack (execCall nnn s) (execCall nnn t) := by
  obtain ⟨slots, rfl, hlive⟩ := h.exists_slots
  by_cases room : s.sp.val < 16
  · refine .inl ⟨_, _, execCall_room room, execCall_room (s := { s with slots := slots }) room, rfl,
      fun k hk hlt => ?_⟩
    have hlt : k < s.sp.val + 1 := hlt
    simp only [State.push, State.setPc, Vector.getElem_set]
    split
    · rfl
    · exact hlive k hk (by omega)
  · exact .inl ⟨_, _, execCall_full room, execCall_full (s := { s with slots := slots }) room, rfl, hlive⟩

/-- `Return` pops the top live slot, the same on both (R108). -/
theorem execReturn_related {s t : State} (h : SameLiveStack s t) :
    RelatedOutcomes SameLiveStack (execReturn s) (execReturn t) := by
  obtain ⟨slots, rfl, hlive⟩ := h.exists_slots
  cases hsp : s.sp.val with
  | zero => exact .inl ⟨_, _, execReturn_empty hsp, execReturn_empty (s := { s with slots := slots }) hsp, rfl, hlive⟩
  | succ k =>
    have hk : k < 16 := by omega
    refine .inl ⟨_, _, execReturn_pop hsp hk, execReturn_pop (s := { s with slots := slots }) hsp hk, ?_,
      fun j hj hlt => ?_⟩
    · simp only [State.popPc, hlive k hk (by omega)]
    · have hlt : j < k := hlt
      exact hlive j hj (by omega)

/-- Every instruction keeps two such states so. -/
theorem exec_related (i : Instr) {s t : State} (h : SameLiveStack s t) :
    RelatedOutcomes SameLiveStack (exec i s) (exec i t) := by
  by_cases hret : i = .ret
  · subst hret
    exact execReturn_related h
  · by_cases hcall : ∃ nnn, i = .call nnn
    · obtain ⟨nnn, rfl⟩ := hcall
      exact execCall_related nnn h
    · exact (leavesStack_exec (fun nnn e => hcall ⟨nnn, e⟩) hret).related h

/-- A core step sees the same `pc`, memory and parameters in both, so it fetches and decodes alike. -/
theorem coreStep_related {s t : State} (h : SameLiveStack s t) :
    RelatedOutcomes SameLiveStack s.coreStep t.coreStep := by
  obtain ⟨slots, rfl, hlive⟩ := h.exists_slots
  have hfetch : State.fetchFails { s with slots := slots } = s.fetchFails := rfl
  have hword (a : Nat) : State.wordAt { s with slots := slots } a = s.wordAt a := rfl
  simp only [State.coreStep, hfetch, hword]
  cases s.fetchFails with
  | true => exact .inl ⟨_, _, rfl, rfl, rfl, hlive⟩
  | false =>
    cases decode s.cfg.strict59 (s.wordAt s.pc.toNat) with
    | error e => exact .inl ⟨_, _, rfl, rfl, rfl, hlive⟩
    | ok i => exact exec_related i h

/-- A turn of the core sees the same status in both. -/
theorem coreTurn_related {s t : State} (h : SameLiveStack s t) :
    RelatedOutcomes SameLiveStack s.coreTurn t.coreTurn := by
  have hstatus : t.status = s.status := by rw [h.1]
  simp only [State.coreTurn, hstatus]
  cases s.status with
  | running => exact coreStep_related h
  | waitKey x => exact .inl ⟨_, _, rfl, rfl, h⟩
  | halted e => exact .inr (.inl ⟨_, rfl, rfl⟩)
  | stopped => exact .inr (.inl ⟨_, rfl, rfl⟩)

/-- Every turn keeps two such states so. -/
theorem takeTurn_related (u : Turn) {s t : State} (h : SameLiveStack s t) :
    RelatedOutcomes SameLiveStack (s.takeTurn u) (t.takeTurn u) := by
  by_cases hu : u = .core
  · subst hu
    exact coreTurn_related h
  · exact (leavesStack_takeTurn hu).related h

/-- The same turn is next in both, and taking it off the schedule keeps them so. -/
theorem NextTurn.sameLiveStack {s s' t : State} {u : Turn} (hn : NextTurn s u s') (h : SameLiveStack s t) :
    ∃ t', NextTurn t u t' ∧ SameLiveStack s' t' := by
  obtain ⟨slots, rfl, hlive⟩ := h.exists_slots
  rcases hn with ⟨rest, hturns, rfl⟩ | ⟨hturns, hu, rfl⟩
  · exact ⟨_, .inl ⟨rest, hturns, rfl⟩, rfl, hlive⟩
  · exact ⟨_, .inr ⟨hturns, hu, rfl⟩, rfl, hlive⟩

/-- Settles O56: the same turn comes next in both states, and after it they still differ in dead slots at most. -/
theorem deadStackSlotsUnobservable : Obligations.DeadStackSlotsUnobservable := by
  intro s t h
  obtain ⟨u, s', hs⟩ := exists_nextTurn s
  obtain ⟨t', ht, h'⟩ := hs.sameLiveStack h
  rw [hs.step_eq, ht.step_eq]
  exact takeTurn_related u h'

end Sys2Proof.Safety
end

section
/-! The causes of `OutOfBoundsAccess` (O42): a range check that fails, or a register above 15 read as an index, comes
before every write of its instruction, so the instruction only raises the error. -/

namespace Sys2Proof.Machine

/-! A range check that fails (R57, R58, R59) -/

/-- R162: the rows of the sprite. -/
theorem exec_drawSprite_raises {x y n : Nibble} {s : State} (h : checkReadFails s.baseAddr n.toNat = true) :
    exec (.drawSprite x y n) s = raiseIn (.drawSprite x y n) .outOfBoundsAccess s := if_pos h

/-- R184: the three digits. -/
theorem exec_storeBCD_raises {x : Nibble} {s : State}
    (h : checkWriteFails s.cfg.writeProtectLimit s.baseAddr 3 = true) :
    exec (.storeBCD x) s = raiseIn (.storeBCD x) .outOfBoundsAccess s := if_pos h

/-- R185: the registers stored. -/
theorem exec_copyRegisters_raises {x : Nibble} {s : State}
    (h : checkWriteFails s.cfg.writeProtectLimit s.baseAddr (x.toNat + 1) = true) :
    exec (.copyRegisters x) s = raiseIn (.copyRegisters x) .outOfBoundsAccess s := if_pos h

/-- R186: the registers loaded. -/
theorem exec_fillRegisters_raises {x : Nibble} {s : State} (h : checkReadFails s.baseAddr (x.toNat + 1) = true) :
    exec (.fillRegisters x) s = raiseIn (.fillRegisters x) .outOfBoundsAccess s := if_pos h

/-! A register above 15 read as an index (R183, R210) -/

/-- R183: the digit. -/
theorem exec_loadFontAddr_raises {x : Nibble} {s : State} (h : s.smallReg x = none) :
    exec (.loadFontAddr x) s = raiseIn (.loadFontAddr x) .outOfBoundsAccess s := by
  simp only [exec_loadFontAddr_eq, h, Option.elim_none]

/-- R211: the key. -/
theorem exec_skipIfKeyDown_raises {x : Nibble} {s : State} (h : s.smallReg x = none) :
    exec (.skipIfKeyDown x) s = raiseIn (.skipIfKeyDown x) .outOfBoundsAccess s := by
  simp only [exec_skipIfKeyDown_eq, h, Option.elim_none]

/-- R212: the key. -/
theorem exec_skipIfKeyNotDown_raises {x : Nibble} {s : State} (h : s.smallReg x = none) :
    exec (.skipIfKeyNotDown x) s = raiseIn (.skipIfKeyNotDown x) .outOfBoundsAccess s := by
  simp only [exec_skipIfKeyNotDown_eq, h, Option.elim_none]

end Sys2Proof.Machine

namespace Sys2Proof.Safety

open Sys2Proof.Machine

/-- An instruction with one of the causes 3 to 8 of R243 only raises the error. -/
theorem OutOfBoundsCause.exec_eq_raiseIn {s : State} {i : Instr} (h : OutOfBoundsCause s i) :
    exec i s = raiseIn i .outOfBoundsAccess s := by
  have hbase : s.baseAddr = s.i.toNat := rfl
  obtain ⟨x, y, n, rfl, hn, hend⟩ | ⟨x, rfl, hrange⟩ | ⟨x, rfl, hrange⟩ | ⟨x, rfl, hend⟩ | ⟨x, rfl, hreg⟩ |
    ⟨x, rfl | rfl, hreg⟩ := h
  · exact exec_drawSprite_raises ((checkReadFails_iff _ _).2 (by omega))
  · exact exec_storeBCD_raises ((checkWriteFails_iff _ _ _).2 (by omega))
  · exact exec_copyRegisters_raises ((checkWriteFails_iff _ _ _).2 (by omega))
  · exact exec_fillRegisters_raises ((checkReadFails_iff _ _).2 (by omega))
  · exact exec_loadFontAddr_raises ((s.smallReg_none x).2 hreg)
  · exact exec_skipIfKeyDown_raises ((s.smallReg_none x).2 hreg)
  · exact exec_skipIfKeyNotDown_raises ((s.smallReg_none x).2 hreg)

/-- Settles O42: such an instruction only raises, and raising writes the status alone (R244). -/
theorem rangeErrorsWriteNothing : Obligations.RangeErrorsWriteNothing :=
  fun _ _ h => h.exec_eq_raiseIn

end Sys2Proof.Safety
end

section
/-! Encoding and decoding (O1 to O6): the decoder reads back the fields the encoder lays out, a word of a group is
its fields laid out, and a row of the opcode map fixes exactly the fields its group's decoder looks at. -/

namespace Sys2Proof

/-! Decoding what was encoded (R86) -/

/-- The fields a group selects by are fixed in the layout of its instructions, and every operand is a field. -/
theorem decode_encode (strict : Bool) (i : Instr) : decode strict (encode i) = .ok i := by
  cases i with
  | clear | ret => rfl
  | jump nnn | call nnn | storeNnnInI nnn | jumpAddV0 nnn | skipEqImm x nn | skipNeImm x nn | setImm x nn
  | addImm x nn | random x nn | drawSprite x y n | skipEqReg x y | skipNeReg x y => simp [encode, decode]
  | assign x y | or x y | and x y | xor x y | add x y | sub x y | shiftRight x y | reverseSub x y
  | shiftLeft x y => simp [encode, decode, decodeGroup8]
  | skipIfKeyDown x | skipIfKeyNotDown x => simp [encode, decode, decodeGroupE]
  | loadDelay x | waitKeyDownStore x | setDelay x | setSound x | addToI x | loadFontAddr x | storeBCD x
  | copyRegisters x | fillRegisters x => simp [encode, decode, decodeGroupF]

/-- Settles O1: the fields of an encoded instruction are what the layout put there. -/
theorem decodeOfEncode : Obligations.DecodeOfEncode := decode_encode

/-- A word that is the encoding of an instruction decodes to it. -/
theorem decode_of_encode_eq (strict : Bool) {i : Instr} {w : Word} (h : encode i = w) : decode strict w = .ok i :=
  h ▸ decode_encode strict i

/-! A word whose fixed fields are known is its other fields, laid out (R71) -/

theorem wordNNN_of_fieldT {w : Word} {t : Nibble} (hT : fieldT w = t) : wordNNN t (fieldNNN w) = w := by
  rw [← hT, ← word_eq_wordNNN]

theorem wordXNN_of_fieldT {w : Word} {t : Nibble} (hT : fieldT w = t) : wordXNN t (fieldX w) (fieldNN w) = w := by
  rw [← hT, ← word_eq_wordXNN]

theorem wordXYN_of_fieldT {w : Word} {t : Nibble} (hT : fieldT w = t) :
    wordXYN t (fieldX w) (fieldY w) (fieldN w) = w := by
  rw [← hT, ← word_eq_wordXYN]

theorem wordXYN_of_fieldN {w : Word} {t n : Nibble} (hT : fieldT w = t) (hN : fieldN w = n) :
    wordXYN t (fieldX w) (fieldY w) n = w := by
  rw [← hN, wordXYN_of_fieldT hT]

theorem wordXNN_of_fieldNN {w : Word} {t : Nibble} {nn : Byte} (hT : fieldT w = t) (hNN : fieldNN w = nn) :
    wordXNN t (fieldX w) nn = w := by
  rw [← hNN, wordXNN_of_fieldT hT]

/-! Encoding what was decoded (R86) -/

theorem encode_of_decodeGroup0 {w : Word} {i : Instr} (h : decodeGroup0 w = .ok i) : encode i = w := by
  unfold decodeGroup0 at h
  split at h
  next hw => cases h; exact hw.symm
  next =>
    split at h
    next hw => cases h; exact hw.symm
    next => cases h

theorem encode_of_decodeGroup8 {w : Word} {i : Instr} (hT : fieldT w = 8) (h : decodeGroup8 w = .ok i) :
    encode i = w := by
  unfold decodeGroup8 at h
  split at h <;> cases h <;> exact wordXYN_of_fieldN hT ‹_›

theorem encode_of_decodeGroupE {w : Word} {i : Instr} (hT : fieldT w = 0xE) (h : decodeGroupE w = .ok i) :
    encode i = w := by
  unfold decodeGroupE at h
  split at h <;> cases h <;> exact wordXNN_of_fieldNN hT ‹_›

theorem encode_of_decodeGroupF {w : Word} {i : Instr} (hT : fieldT w = 0xF) (h : decodeGroupF w = .ok i) :
    encode i = w := by
  unfold decodeGroupF at h
  split at h <;> cases h <;> exact wordXNN_of_fieldNN hT ‹_›

/-- The check of `Strict59` passes a word of group 5 or 9 only with low nibble 0 (R82). -/
theorem strict59_ok {n : Nibble} {e : DecodeReject} {j i : Instr}
    (h : (if true && n != 0#4 then .error e else .ok j : Except DecodeReject Instr) = .ok i) : n = 0 ∧ j = i := by
  split at h
  next => cases h
  next hn =>
    cases h
    exact ⟨by simpa using hn, rfl⟩

/-- A decoded instruction holds the fields its group leaves open, and its encoding fixes the ones the group
selected by. -/
theorem encode_of_decode {w : Word} {i : Instr} (h : decode true w = .ok i) : encode i = w := by
  unfold decode at h
  split at h
  next => exact encode_of_decodeGroup0 h
  next hT => cases h; exact wordNNN_of_fieldT hT
  next hT => cases h; exact wordNNN_of_fieldT hT
  next hT => cases h; exact wordXNN_of_fieldT hT
  next hT => cases h; exact wordXNN_of_fieldT hT
  next hT =>
    obtain ⟨hN, rfl⟩ := strict59_ok h
    exact wordXYN_of_fieldN hT hN
  next hT => cases h; exact wordXNN_of_fieldT hT
  next hT => cases h; exact wordXNN_of_fieldT hT
  next hT => exact encode_of_decodeGroup8 hT h
  next hT =>
    obtain ⟨hN, rfl⟩ := strict59_ok h
    exact wordXYN_of_fieldN hT hN
  next hT => cases h; exact wordNNN_of_fieldT hT
  next hT => cases h; exact wordNNN_of_fieldT hT
  next hT => cases h; exact wordXNN_of_fieldT hT
  next hT => cases h; exact wordXYN_of_fieldT hT
  next hT => exact encode_of_decodeGroupE hT h
  next =>
    have hT : fieldT w = 0xF := by simp only [imp_false] at *; bv_omega
    exact encode_of_decodeGroupF hT h

/-- Settles O2: a decoded word is its own fields, laid out again. -/
theorem encodeOfDecode : Obligations.EncodeOfDecode := fun _ _ => encode_of_decode

/-! The opcode map (R81) -/

/-- The encoding of every instruction selects the instruction's row. -/
theorem encodeRow (i : Instr) : Laws.EncodeRow.Statement i := by
  cases i with
  | clear => exact Laws.EncodeRow.clear
  | ret => exact Laws.EncodeRow.ret
  | jump nnn => exact Laws.EncodeRow.jump nnn
  | call nnn => exact Laws.EncodeRow.call nnn
  | skipEqImm x nn => exact Laws.EncodeRow.skipEqImm x nn
  | skipNeImm x nn => exact Laws.EncodeRow.skipNeImm x nn
  | skipEqReg x y => exact Laws.EncodeRow.skipEqReg x y
  | setImm x nn => exact Laws.EncodeRow.setImm x nn
  | addImm x nn => exact Laws.EncodeRow.addImm x nn
  | assign x y => exact Laws.EncodeRow.assign x y
  | or x y => exact Laws.EncodeRow.or x y
  | and x y => exact Laws.EncodeRow.and x y
  | xor x y => exact Laws.EncodeRow.xor x y
  | add x y => exact Laws.EncodeRow.add x y
  | sub x y => exact Laws.EncodeRow.sub x y
  | shiftRight x y => exact Laws.EncodeRow.shiftRight x y
  | reverseSub x y => exact Laws.EncodeRow.reverseSub x y
  | shiftLeft x y => exact Laws.EncodeRow.shiftLeft x y
  | skipNeReg x y => exact Laws.EncodeRow.skipNeReg x y
  | storeNnnInI nnn => exact Laws.EncodeRow.storeNnnInI nnn
  | jumpAddV0 nnn => exact Laws.EncodeRow.jumpAddV0 nnn
  | random x nn => exact Laws.EncodeRow.random x nn
  | drawSprite x y n => exact Laws.EncodeRow.drawSprite x y n
  | skipIfKeyDown x => exact Laws.EncodeRow.skipIfKeyDown x
  | skipIfKeyNotDown x => exact Laws.EncodeRow.skipIfKeyNotDown x
  | loadDelay x => exact Laws.EncodeRow.loadDelay x
  | waitKeyDownStore x => exact Laws.EncodeRow.waitKeyDownStore x
  | setDelay x => exact Laws.EncodeRow.setDelay x
  | setSound x => exact Laws.EncodeRow.setSound x
  | addToI x => exact Laws.EncodeRow.addToI x
  | loadFontAddr x => exact Laws.EncodeRow.loadFontAddr x
  | storeBCD x => exact Laws.EncodeRow.storeBCD x
  | copyRegisters x => exact Laws.EncodeRow.copyRegisters x
  | fillRegisters x => exact Laws.EncodeRow.fillRegisters x

/-- Every row is some instruction's: of the one its value decodes to. -/
theorem exists_rowOf_eq {r : OpcodeRow} (hr : r ∈ opcodeTable) : ∃ i, Laws.rowOf i = r := by
  have hvalue : ∀ r ∈ opcodeTable, (decode true r.value).toOption.map Laws.rowOf = some r := by decide
  have h := hvalue r hr
  cases hd : decode true r.value with
  | error e => simp [hd, Except.toOption] at h
  | ok i => exact ⟨i, by simpa [hd, Except.toOption] using h⟩

/-- Every row fixes the top nibble. -/
theorem fieldT_mask {r : OpcodeRow} (hr : r ∈ opcodeTable) : fieldT r.mask = BitVec.allOnes 4 := by
  have hall : ∀ r ∈ opcodeTable, fieldT r.mask = BitVec.allOnes 4 := by decide
  exact hall r hr

/-- Words that agree under a mask agree in every field that the mask keeps whole. -/
theorem extractLsb'_eq_of_and_eq {v w m : Word} {start len : Nat} (h : w &&& m = v &&& m)
    (hm : m.extractLsb' start len = BitVec.allOnes len) : w.extractLsb' start len = v.extractLsb' start len := by
  have hfield := congrArg (BitVec.extractLsb' start len) h
  simpa only [BitVec.extractLsb'_and, hm, BitVec.and_allOnes] using hfield

/-- A word that selects the row of an instruction has the fields its group selects by as the encoding has them, so
it decodes. -/
theorem exists_decode_of_selects_rowOf {w : Word} {i : Instr}
    (h : w &&& (Laws.rowOf i).mask = (Laws.rowOf i).value) : ∃ j, decode true w = .ok j := by
  have hw : w &&& (Laws.rowOf i).mask = encode i &&& (Laws.rowOf i).mask := h.trans (encodeRow i).2.symm
  have hT : fieldT w = fieldT (encode i) := extractLsb'_eq_of_and_eq hw (fieldT_mask (encodeRow i).1)
  cases i with
  | clear | ret =>
    obtain rfl : w = _ := BitVec.and_allOnes.symm.trans h
    exact ⟨_, rfl⟩
  | jump nnn | call nnn | storeNnnInI nnn | jumpAddV0 nnn | skipEqImm x nn | skipNeImm x nn | setImm x nn
  | addImm x nn | random x nn | drawSprite x y n => simp [decode, hT, encode]
  | skipEqReg x y | skipNeReg x y | assign x y | or x y | and x y | xor x y | add x y | sub x y | shiftRight x y
  | reverseSub x y | shiftLeft x y =>
    have hN : fieldN w = fieldN _ := extractLsb'_eq_of_and_eq (m := 0xF00F) hw (by decide)
    simp [decode, decodeGroup8, hT, hN, encode]
  | skipIfKeyDown x | skipIfKeyNotDown x | loadDelay x | waitKeyDownStore x | setDelay x | setSound x | addToI x
  | loadFontAddr x | storeBCD x | copyRegisters x | fillRegisters x =>
    have hNN : fieldNN w = fieldNN _ := extractLsb'_eq_of_and_eq (m := 0xF0FF) hw (by decide)
    simp [decode, decodeGroupE, decodeGroupF, hT, hNN, encode]

/-- Settles O3: a word that decodes is the encoding of its instruction, which selects that instruction's row; and a
word that selects a row decodes. -/
theorem decodesExactlyTheOpcodeMap : Obligations.DecodesExactlyTheOpcodeMap := by
  intro w
  constructor
  · rintro ⟨i, hi⟩
    obtain rfl := encode_of_decode hi
    exact ⟨Laws.rowOf i, encodeRow i⟩
  · rintro ⟨r, hr, h⟩
    obtain ⟨i, rfl⟩ := exists_rowOf_eq hr
    exact exists_decode_of_selects_rowOf h

/-- Settles O4: the values of two rows that one word selects agree on the bits both masks keep, and no two rows'
values do. -/
theorem opcodeRowsAreDisjoint : Obligations.OpcodeRowsAreDisjoint := by
  intro w r r' hr hr' h h'
  have hdisjoint : ∀ r ∈ opcodeTable, ∀ r' ∈ opcodeTable, r.value &&& r'.mask = r'.value &&& r.mask → r = r' := by
    decide
  have hagree : r.value &&& r'.mask = r'.value &&& r.mask := by
    rw [← h, ← h', BitVec.and_assoc, BitVec.and_assoc, BitVec.and_comm r.mask]
  exact hdisjoint r hr r' hr' hagree

/-! The fields as numbers (R71) -/

theorem fieldNNN_toNat (w : Word) : (fieldNNN w).toNat = w.toNat % 0x1000 := by
  simp [fieldNNN, BitVec.extractLsb'_toNat]

theorem fieldT_of_toNat_div {w : Word} {t : Nibble} (h : w.toNat / 0x1000 = t.toNat) : fieldT w = t := by
  apply BitVec.eq_of_toNat_eq
  have ht := t.isLt
  rw [fieldT, BitVec.extractLsb'_toNat, Nat.shiftRight_eq_div_pow]
  omega

/-- R76: the decoder's group 0. -/
theorem decode_of_fieldT_zero (strict : Bool) {w : Word} (hT : fieldT w = 0#4) : decode strict w = decodeGroup0 w := by
  simp only [decode, hT]

/-- Settles O5: the two words are encodings, and group 0 rejects every other one. -/
theorem groupZeroDecodesTwoWords : Obligations.GroupZeroDecodesTwoWords := by
  intro strict w hw
  refine ⟨?_, ?_, fun hclear hret => ?_⟩
  · exact fun h => decode_of_encode_eq strict h.symm
  · exact fun h => decode_of_encode_eq strict h.symm
  · have hT : fieldT w = 0 := fieldT_of_toNat_div (Nat.div_eq_of_lt (by omega))
    calc decode strict w = decodeGroup0 w := decode_of_fieldT_zero strict hT
      _ = if w = 0x00EE then .ok .ret else .error .group0 := if_neg hclear
      _ = .error .group0 := if_neg hret

/-- Settles O6: a word of one of the four groups is the encoding of that instruction with the word's low 12 bits. -/
theorem addressOperandsKeepTwelveBits : Obligations.AddressOperandsKeepTwelveBits := by
  have hword {w : Word} (t : Nibble) (h : w.toNat / 0x1000 = t.toNat) : wordNNN t (fieldNNN w) = w :=
    wordNNN_of_fieldT (fieldT_of_toNat_div h)
  refine ⟨fun strict w => ⟨fieldNNN w, fieldNNN_toNat w, ?_, ?_, ?_, ?_⟩, decode_encode true (.storeNnnInI 0xFFF)⟩
  · exact fun h => decode_of_encode_eq strict (hword 0x1 h)
  · exact fun h => decode_of_encode_eq strict (hword 0x2 h)
  · exact fun h => decode_of_encode_eq strict (hword 0xA h)
  · exact fun h => decode_of_encode_eq strict (hword 0xB h)

end Sys2Proof
end

section
/-! The sequencer and control transfer (O10, O11, O13, O15, O18 to O22, O51): what one instruction can do to `pc` and
the call stack, said once, and from it the bound of R105. -/

namespace Sys2Proof.Machine

/-! The addresses a jump reaches (R106, R107, R109) -/

@[simp] theorem zextAddr_toNat (nnn : Addr12) : (zextAddr nnn).toNat = nnn.toNat :=
  BitVec.toNat_setWidth_of_le (by decide)

@[simp] theorem zextByte_toNat (b : Byte) : (zextByte b).toNat = b.toNat :=
  BitVec.toNat_setWidth_of_le (by decide)

/-- R109: the sum is exact. -/
@[simp] theorem zextAddr_add_zextByte_toNat (nnn : Addr12) (b : Byte) :
    (zextAddr nnn + zextByte b).toNat = nnn.toNat + b.toNat := by
  have hn := nnn.isLt
  have hb := b.isLt
  rw [BitVec.toNat_add, zextAddr_toNat, zextByte_toNat]
  omega

/-- Fetch succeeds inside the address space only (R101). -/
theorem State.pc_le_of_fetchFails_false {s : State} (h : s.fetchFails = false) : s.pc.toNat ≤ 0xFFE := by
  refine Nat.le_of_not_lt fun hpc => ?_
  have hfails : s.fetchFails = true := s.fetchFails_iff.2 (.inl hpc)
  exact Bool.false_ne_true (h.symm.trans hfails)

/-! The two errors before the instruction (R101, R102) -/

theorem State.coreStep_of_fetchFails {s : State} (h : s.fetchFails = true) :
    s.coreStep = .next (s.raise .outOfBoundsAccess none) := if_pos h

theorem State.coreStep_of_decode_error {s : State} {why : DecodeReject} (hf : s.fetchFails = false)
    (hd : decode s.cfg.strict59 (s.wordAt s.pc.toNat) = .error why) :
    s.coreStep = .next (s.raise .decodeFailure (some (s.wordAt s.pc.toNat))) := by
  simp only [State.coreStep, hf, hd, Bool.false_eq_true, if_false]

end Sys2Proof.Machine

namespace Sys2Proof.Safety

open Sys2Proof.Machine

/-! What an instruction does to `pc`, the call stack and the status -/

/-- `t` is a state the instruction can leave `s` in, as far as `pc`, the call stack and the status go: one case for
each way `pc` moves. -/
inductive ControlEffect (s : State) : Instr → State → Prop where
  /-- An error: only the status changes (R244). -/
  | raises {i : Instr} (k : ErrorKind) : ControlEffect s i (s.raise k (some (encode i)))
  /-- The key wait: `pc` stays (R213, D15). -/
  | waits (x : Nibble) : ControlEffect s (.waitKeyDownStore x) (s.setStatus (.waitKey x))
  /-- R106. -/
  | jumps (nnn : Addr12) : ControlEffect s (.jump nnn) (s.setPc (zextAddr nnn))
  /-- R109. -/
  | jumpsAddV0 (nnn : Addr12) : ControlEffect s (.jumpAddV0 nnn) (s.setPc (zextAddr nnn + zextByte (s.reg 0)))
  /-- R107. -/
  | calls (nnn : Addr12) (room : s.sp.val < 16) :
      ControlEffect s (.call nnn) ((s.push (s.pc + 2) room).setPc (zextAddr nnn))
  /-- R108. -/
  | returns (k : Nat) (hk : k < 16) (live : s.sp.val = k + 1) : ControlEffect s .ret (s.popPc k hk)
  /-- R110: a skip, taken or not. -/
  | skips {i : Instr} (h : IsSkip i) (c : Bool) : ControlEffect s i (s.skipIf c)
  /-- R104: any other instruction goes two bytes on. -/
  | advances {i : Instr} {t : State} (pc : t.pc = s.pc + 2) (slots : t.slots = s.slots) (sp : t.sp = s.sp)
      (status : t.status = s.status) : ControlEffect s i t

/-- The same behind a check that raises (R59). -/
theorem controlEffect_checked {s t : State} {i : Instr} (c : Bool) (k : ErrorKind) (h : ControlEffect s i t) :
    ∃ u, (if c then raiseIn i k s else .next t) = .next u ∧ ControlEffect s i u := by
  cases c with
  | true => exact ⟨_, rfl, .raises k⟩
  | false => exact ⟨_, rfl, h⟩

/-- The same on a register read as an index (R183, R210). -/
theorem controlEffect_indexed {s : State} {i : Instr} {f : Nibble → State} (d : Option Nibble) (k : ErrorKind)
    (h : ∀ n, ControlEffect s i (f n)) :
    ∃ u, d.elim (raiseIn i k s) (fun n => .next (f n)) = .next u ∧ ControlEffect s i u := by
  cases d with
  | none => exact ⟨_, rfl, .raises k⟩
  | some n => exact ⟨_, rfl, h n⟩

/-- Every instruction answers a state that `ControlEffect` describes. -/
theorem exec_controlEffect (i : Instr) (s : State) : ∃ t, exec i s = .next t ∧ ControlEffect s i t := by
  cases i
  case jump nnn => exact ⟨_, rfl, .jumps nnn⟩
  case jumpAddV0 nnn => exact ⟨_, rfl, .jumpsAddV0 nnn⟩
  case waitKeyDownStore x => exact ⟨_, rfl, .waits x⟩
  case call nnn =>
    by_cases room : s.sp.val < 16
    · exact ⟨_, execCall_room room, .calls nnn room⟩
    · exact ⟨_, execCall_full room, .raises _⟩
  case ret =>
    cases hsp : s.sp.val with
    | zero => exact ⟨_, execReturn_empty hsp, .raises _⟩
    | succ k =>
      have hk : k < 16 := by omega
      exact ⟨_, execReturn_pop hsp hk, .returns k hk hsp⟩
  case skipEqImm x nn => exact ⟨_, rfl, .skips (by simp [IsSkip]) _⟩
  case skipNeImm x nn => exact ⟨_, rfl, .skips (by simp [IsSkip]) _⟩
  case skipEqReg x y => exact ⟨_, rfl, .skips (by simp [IsSkip]) _⟩
  case skipNeReg x y => exact ⟨_, rfl, .skips (by simp [IsSkip]) _⟩
  case skipIfKeyDown x =>
    rw [exec_skipIfKeyDown_eq]
    exact controlEffect_indexed _ _ fun k => .skips (by simp [IsSkip]) _
  case skipIfKeyNotDown x =>
    rw [exec_skipIfKeyNotDown_eq]
    exact controlEffect_indexed _ _ fun k => .skips (by simp [IsSkip]) _
  case loadFontAddr x =>
    rw [exec_loadFontAddr_eq]
    exact controlEffect_indexed _ _ fun d => .advances rfl rfl rfl rfl
  case drawSprite x y n => exact controlEffect_checked _ _ (.advances rfl rfl rfl rfl)
  case storeBCD x => exact controlEffect_checked _ _ (.advances rfl rfl rfl rfl)
  case copyRegisters x => exact controlEffect_checked _ _ (.advances rfl rfl rfl rfl)
  case fillRegisters x => exact controlEffect_checked _ _ (.advances (by simp) (by simp) (by simp) (by simp))
  all_goals exact ⟨_, rfl, .advances rfl rfl rfl rfl⟩

/-- The only answer an instruction gives is one that `ControlEffect` describes. -/
theorem controlEffect_of_exec {i : Instr} {s t : State} (h : exec i s = .next t) : ControlEffect s i t := by
  obtain ⟨u, hu, heffect⟩ := exec_controlEffect i s
  obtain rfl := next_eq (hu.symm.trans h)
  exact heffect

/-! The bound of R105 -/

/-- The bound speaks of `pc`, the call stack and a waiting status only. -/
theorem PcBounded.congr {s t : State} (h : PcBounded s) (hpc : t.pc = s.pc) (hslots : t.slots = s.slots)
    (hsp : t.sp = s.sp) (hwait : ∀ x, t.status = .waitKey x → s.status = .waitKey x) : PcBounded t := by
  obtain ⟨hpcBound, hstack, hwaiting⟩ := h
  simp only [PcBounded, hpc, hslots, hsp]
  exact ⟨hpcBound, hstack, fun x hx => hwaiting x (hwait x hx)⟩

/-- `pc` moves inside the bound in a core that does not wait, and the call stack stays. -/
theorem PcBounded.move {s t : State} (h : PcBounded s) (hpc : t.pc.toNat ≤ 0x10FE) (hslots : t.slots = s.slots)
    (hsp : t.sp = s.sp) (hwait : ∀ x, t.status ≠ .waitKey x) : PcBounded t := by
  obtain ⟨-, hstack, -⟩ := h
  simp only [PcBounded, hslots, hsp]
  exact ⟨hpc, hstack, fun x hx => absurd hx (hwait x)⟩

/-- An error leaves the bound as it is (R244). -/
theorem PcBounded.raise {s : State} (h : PcBounded s) (k : ErrorKind) (w : Option Word) : PcBounded (s.raise k w) :=
  h.congr rfl rfl rfl nofun

/-- R105: an instruction that was fetched at or below `0xFFE` moves `pc` to at most `0x10FE`, the farthest
`JumpAddV0`, and pushes at most `0x1000`. -/
theorem ControlEffect.pcBounded {s t : State} {i : Instr} (he : ControlEffect s i t) (h : PcBounded s)
    (hrun : s.status = .running) (hfetched : s.pc.toNat ≤ 0xFFE) : PcBounded t := by
  have hnowait : ∀ x, s.status ≠ .waitKey x := by simp [hrun]
  cases he with
  | raises k => exact h.raise k _
  | waits x =>
    obtain ⟨hpc, hstack, -⟩ := h
    exact ⟨hpc, hstack, fun _ _ => hfetched⟩
  | jumps nnn =>
    have := nnn.isLt
    exact h.move (by simp; omega) rfl rfl hnowait
  | jumpsAddV0 nnn =>
    have := nnn.isLt
    have := (s.reg 0).isLt
    exact h.move (by simp; omega) rfl rfl hnowait
  | calls nnn room =>
    obtain ⟨-, hstack, -⟩ := h
    have := nnn.isLt
    refine ⟨by simp; omega, fun k hk hlive => ?_, fun x hx => absurd hx (hnowait x)⟩
    have hlive : k < s.sp.val + 1 := hlive
    simp only [State.setPc_slots, State.push_slots, Vector.getElem_set]
    split
    · bv_omega
    · exact hstack k hk (by omega)
  | returns k hk live =>
    obtain ⟨-, hstack, -⟩ := h
    have htop : (s.slots[k]).toNat ≤ 0x1000 := hstack k hk (by omega)
    refine ⟨by simp; omega, fun j hj hlive => ?_, fun x hx => absurd hx (hnowait x)⟩
    have hlive : j < k := hlive
    exact hstack j hj (by omega)
  | skips hskip c =>
    rw [State.skipIf_eq]
    refine h.move ?_ rfl rfl hnowait
    rw [State.setPc_pc]
    split <;> bv_omega
  | advances hpc hslots hsp hstatus => exact h.move (by rw [hpc]; bv_omega) hslots hsp (by simp [hstatus, hrun])

/-- A turn of the core keeps the bound: beyond the last word the fetch fails. -/
theorem PcBounded.coreTurn {s t : State} (h : PcBounded s) (ht : s.coreTurn = .next t) : PcBounded t := by
  obtain ⟨rfl, -⟩ | ⟨-, -, rfl⟩ | ⟨-, -, rfl⟩ | ⟨hrun, hfetch, i, -, hexec⟩ := State.coreTurn_next ht
  · exact h
  · exact h.raise _ _
  · exact h.raise _ _
  · exact (controlEffect_of_exec hexec).pcBounded h hrun (State.pc_le_of_fetchFails_false hfetch)

/-- A key press that ends a wait moves `pc` past the waiting instruction, which could be fetched (R214). -/
theorem PcBounded.keyPress {s : State} (h : PcBounded s) (k : Nibble) : PcBounded (s.keyPress k) := by
  obtain ⟨x, hx, he⟩ | ⟨-, he⟩ := s.keyPress_eq k <;> rw [he]
  · have ⟨_, _, hwaiting⟩ := h
    have hfetched : s.pc.toNat ≤ 0xFFE := hwaiting x hx
    refine h.move ?_ rfl rfl nofun
    simp only [State.setStatus_pc, State.advance_pc, State.setReg_pc, State.setKey_pc]
    bv_omega
  · exact h.congr rfl rfl rfl fun _ => id

/-- An abort ends a wait where it stands (R261). -/
theorem PcBounded.abort {s : State} (h : PcBounded s) : PcBounded s.abort := by
  obtain ⟨-, he⟩ | ⟨-, he⟩ := s.abort_eq <;> rw [he]
  · exact h.congr rfl rfl rfl nofun
  · exact h

/-- Settles O51: taking a turn off the schedule keeps the bound, and so does every kind of turn. -/
theorem stepKeepsPcBounded : Obligations.StepKeepsPcBounded := by
  intro s t h ht
  obtain ⟨q, n, hturn⟩ := step_turn_cases s
  have h' : PcBounded (s.setSchedule q n) := h
  obtain ⟨-, hs⟩ | hs | ⟨k, hs⟩ | ⟨k, hs⟩ | hs := hturn <;> rw [hs] at ht
  · exact h'.coreTurn ht
  · obtain rfl := next_eq ht
    exact h'.congr rfl rfl rfl fun _ => id
  · obtain rfl := next_eq ht
    exact h'.keyPress k
  · obtain rfl := next_eq ht
    exact h'.congr rfl rfl rfl fun _ => id
  · obtain rfl := next_eq ht
    exact h'.abort

/-! The turns of the core (R100 to R102) -/

/-- Settles O15: an instruction, a failed fetch or decode and every host action answer a next state; what is left is
the core's turn in a terminal state. -/
theorem onlyTerminalCoreTurnsEnd : Obligations.OnlyTerminalCoreTurnsEnd := by
  intro s
  obtain ⟨q, n, ⟨hcore, hs⟩ | hs | ⟨k, hs⟩ | ⟨k, hs⟩ | hs⟩ := step_turn_cases s
  · rw [hs]
    obtain ⟨-, ht⟩ | ⟨x, -, ht⟩ | ⟨e, he, ht⟩ | ⟨he, ht⟩ := (s.setSchedule q n).coreTurn_cases
    · obtain ⟨-, hc⟩ | ⟨-, -, hc⟩ | ⟨-, i, -, hc⟩ := (s.setSchedule q n).coreStep_cases
      · exact .inl ⟨_, ht.trans hc⟩
      · exact .inl ⟨_, ht.trans hc⟩
      · obtain ⟨t, hexec⟩ := exec_next i (s.setSchedule q n)
        exact .inl ⟨t, ht.trans (hc.trans hexec)⟩
    · exact .inl ⟨_, ht⟩
    · exact .inr ⟨⟨_, hcore⟩, .inl ⟨e, he, ht⟩⟩
    · exact .inr ⟨⟨_, hcore⟩, .inr ⟨he, ht⟩⟩
  all_goals exact .inl ⟨_, hs⟩

/-- Settles O13: a core turn is decided by the status, which taking the turn off the schedule keeps. -/
theorem coreStepsOnlyWhileRunning : Obligations.CoreStepsOnlyWhileRunning := by
  intro s s' h
  rw [h.step_eq]
  obtain ⟨q, n, rfl⟩ := h.eq_setSchedule
  refine ⟨fun x hx => ?_, fun e he => ?_, fun hs => ?_⟩ <;> simp only [State.coreTurn, State.setSchedule_status, *]

/-- A core turn of a running machine is the core step, with the turn taken off the schedule. -/
theorem CoreTurnNext.step_eq_coreStep {s s' : State} (h : CoreTurnNext s s') (hrun : s.status = .running) :
    ∃ q n, s' = s.setSchedule q n ∧ step s = (s.setSchedule q n).coreStep := by
  obtain ⟨q, n, rfl⟩ := h.eq_setSchedule
  exact ⟨q, n, rfl, h.step_eq.trans (State.coreTurn_running hrun)⟩

/-- Settles O10: the fetch looks at `pc` and the parameters, and a failed one raises. -/
theorem fetchFailureHalts : Obligations.FetchFailureHalts := by
  intro s s' h hrun
  refine ⟨s.fetchFails_iff, fun hf => ?_⟩
  obtain ⟨q, n, rfl, hs⟩ := h.step_eq_coreStep hrun
  exact hs.trans (State.coreStep_of_fetchFails hf)

/-- Settles O11: the two bytes at `pc` are the word the core decodes, and a word that does not decode raises. -/
theorem decodeFailureHalts : Obligations.DecodeFailureHalts := by
  intro s s' why h hrun hf hd
  obtain ⟨q, n, rfl, hs⟩ := h.step_eq_coreStep hrun
  exact ⟨_, rfl, hs.trans (State.coreStep_of_decode_error hf hd)⟩

/-! Control transfer (R104 to R109) -/

/-- Setting `pc` touches nothing else. -/
theorem sameExcept_setPc (s : State) (w : Word) : SameExcept [.pc] s (s.setPc w) := by
  intro f hf
  cases f <;> simp_all [Part.same]

/-- A push touches the call stack only. -/
theorem sameExcept_push (s : State) (w : Word) (room : s.sp.val < 16) : SameExcept [.stack] s (s.push w room) := by
  intro f hf
  cases f <;> simp_all [Part.same]

/-- A pop touches `pc` and the call stack only. -/
theorem sameExcept_popPc (s : State) (k : Nat) (hk : k < 16) : SameExcept [.pc, .stack] s (s.popPc k hk) := by
  intro f hf
  cases f <;> simp_all [Part.same]

/-- Settles O18: of the ways `pc` moves, only those of the named instructions leave it elsewhere than two bytes on. -/
theorem onlyControlTransfersWritePc : Obligations.OnlyControlTransfersWritePc := by
  intro i s t _ hexec hnohalt
  refine ⟨fun hpc => ?_, fun hskip => ?_, ?_⟩
  · cases controlEffect_of_exec hexec with
    | raises k => exact absurd rfl (hnohalt _)
    | waits x => exact .inr (.inr (.inr ⟨x, rfl⟩))
    | jumps nnn => exact .inl ⟨nnn, .inl rfl⟩
    | jumpsAddV0 nnn => exact .inl ⟨nnn, .inr (.inr rfl)⟩
    | calls nnn room => exact .inl ⟨nnn, .inr (.inl rfl)⟩
    | returns k hk live => exact .inr (.inl rfl)
    | skips hskip c => exact .inr (.inr (.inl hskip))
    | advances hpc' => exact absurd hpc' hpc
  · cases controlEffect_of_exec hexec with
    | raises k => exact absurd rfl (hnohalt _)
    | skips _ c => cases c <;> simp [State.skipIf_eq]
    | advances hpc => exact .inl hpc
    | _ => simp [IsSkip] at hskip
  · rintro ⟨x, rfl⟩
    obtain rfl := next_eq hexec
    rfl

/-- Settles O19: the target is exact, and setting `pc` touches nothing else. -/
theorem jumpsSetPc : Obligations.JumpsSetPc := by
  intro nnn s
  exact ⟨⟨_, rfl, zextAddr_toNat nnn, sameExcept_setPc s _⟩,
    ⟨_, rfl, zextAddr_add_zextByte_toNat nnn _, sameExcept_setPc s _⟩⟩

/-- Settles O20: a push at the first dead slot, then a jump. -/
theorem callPushesReturnAddress : Obligations.CallPushesReturnAddress := by
  intro nnn s room
  refine ⟨_, execCall_room room, zextAddr_toNat nnn, rfl, ?_, fun k hk hne => ?_, ?_⟩
  · exact Vector.getElem_set_self room
  · exact Vector.getElem_set_ne room hk hne.symm
  · exact ((sameExcept_push s (s.pc + 2) room).mono (by simp)).trans ((sameExcept_setPc _ _).mono (by simp))

/-- Settles O21: on a stack with a live entry `Return` is the pop. -/
theorem returnPopsTopEntry : Obligations.ReturnPopsTopEntry := fun s k hk live =>
  ⟨_, execReturn_pop live hk, rfl, rfl, rfl, sameExcept_popPc s k hk⟩

/-- Settles O22: the entry `Return` pops is the one `Call` pushed (O20, O21). -/
theorem returnUndoesCall : Obligations.ReturnUndoesCall := by
  intro nnn s t u room hcall hsp hlive
  obtain ⟨t', ht', -, hdepth, htop, hbelow, -⟩ := callPushesReturnAddress nnn s room
  obtain rfl := next_eq (hcall.symm.trans ht')
  obtain ⟨r, hr, hpc, hrsp, hrslots, -⟩ := returnPopsTopEntry u s.sp.val room (by rw [hsp, hdepth])
  have hrestored : r.sp = s.sp := Fin.ext hrsp
  refine ⟨r, hr, ?_, hrestored, fun k hk hlt => ?_⟩
  · rw [hpc, hlive _ room (by omega), htop]
  · rw [hrestored] at hlt
    simp only [hrslots]
    rw [hlive k hk (by omega), hbelow k hk (by omega)]

end Sys2Proof.Safety
end

section
/-! The register ALU (O26 to O29): what a result written before its flag leaves in every register, and the results and
flags as numbers. -/

namespace Sys2Proof.Machine

/-! Result first, flag last (R22, R130) -/

@[simp] theorem State.setRegFlag_reg_flag (s : State) (x : Nibble) (b f : Byte) :
    (s.setRegFlag x b f).reg regVF = f := by
  rw [State.setRegFlag_reg, if_pos rfl]

theorem State.setRegFlag_reg_result (s : State) {x : Nibble} (b f : Byte) (h : x ≠ regVF) :
    (s.setRegFlag x b f).reg x = b := by
  rw [State.setRegFlag_reg, if_neg h, if_pos rfl]

theorem State.setRegFlag_reg_other (s : State) {x r : Nibble} (b f : Byte) (hx : r ≠ x) (hf : r ≠ regVF) :
    (s.setRegFlag x b f).reg r = s.reg r := by
  rw [State.setRegFlag_reg, if_neg hf, if_neg hx]

/-! The flags (R23) -/

theorem carryFlag_eq_ite (a b : Byte) : carryFlag a b = if a.toNat + b.toNat > 255 then 1 else 0 := by
  simp only [carryFlag, flagByte, decide_eq_true_eq]

theorem noBorrowFlag_eq_ite (a b : Byte) : noBorrowFlag a b = if a.toNat ≥ b.toNat then 1 else 0 := by
  simp only [noBorrowFlag, flagByte, decide_eq_true_eq]

theorem shiftedOutRight_toNat (b : Byte) : (shiftedOutRight b).toNat = b.toNat % 2 :=
  Nat.and_one_is_mod b.toNat

/-- A byte has nothing above bit 7, so the bit moved out is the whole quotient. -/
theorem shiftedOutLeft_toNat (b : Byte) : (shiftedOutLeft b).toNat = b.toNat / 128 := by
  have hb := b.isLt
  have hbit : shiftedOutLeft b = (b >>> 7) &&& 1 := BitVec.ushiftRight_and_distrib b 0x80 7
  calc (shiftedOutLeft b).toNat
      = (b.toNat >>> 7) &&& 1 := congrArg BitVec.toNat hbit
    _ = b.toNat / 128 % 2 := by rw [Nat.and_one_is_mod, Nat.shiftRight_eq_div_pow]
    _ = b.toNat / 128 := by omega

/-! The results (R137 to R141) -/

/-- The difference as the statements write it, with the modulus added before the subtraction. -/
theorem byte_sub_toNat (a b : Byte) : (a - b).toNat = (256 + a.toNat - b.toNat) % 256 := by
  have hb := b.isLt
  rw [BitVec.toNat_sub]
  omega

theorem byte_ushiftRight_one_toNat (b : Byte) : (b >>> 1).toNat = b.toNat / 2 := by
  rw [BitVec.toNat_ushiftRight, Nat.shiftRight_eq_div_pow, Nat.pow_one]

theorem byte_shiftLeft_one_toNat (b : Byte) : (b <<< 1).toNat = 2 * b.toNat % 256 := by
  rw [BitVec.toNat_shiftLeft, Nat.shiftLeft_eq, Nat.pow_one, Nat.mul_comm]

end Sys2Proof.Machine

namespace Sys2Proof.Safety

open Sys2Proof.Machine

/-- Writing a result and its flag touches the registers only. -/
theorem sameExcept_setRegFlag (s : State) (x : Nibble) (b f : Byte) : SameExcept [.v] s (s.setRegFlag x b f) :=
  (sameExcept_setReg s x b).trans (sameExcept_setReg _ regVF f)

/-- An instruction that writes a result and its flag and advances. -/
theorem registerFrame_setRegFlag_advance (s : State) (x : Nibble) (b f : Byte) :
    RegisterFrame [x, regVF] s (s.setRegFlag x b f).advance := by
  obtain ⟨hpc, hframe⟩ := (sameExcept_setRegFlag s x b f).advanceFrame rfl
  refine ⟨hpc, fun r hr => ?_, hframe.mono (by simp)⟩
  obtain ⟨hx, hf⟩ : r ≠ x ∧ r ≠ regVF := by simpa using hr
  exact s.setRegFlag_reg_other b f hx hf

/-- Settles O26: each of the three is one register write, and bit `k` of its result is the operation on bits `k`. -/
theorem bitwiseResults : Obligations.BitwiseResults := by
  intro x y s
  refine ⟨⟨_, rfl, registerFrame_setReg_advance s x _, fun k _ => ?_⟩,
    ⟨_, rfl, registerFrame_setReg_advance s x _, fun k _ => ?_⟩,
    ⟨_, rfl, registerFrame_setReg_advance s x _, fun k _ => ?_⟩⟩
  · rw [State.advance_reg, State.setReg_reg_same, BitVec.getLsbD_or]
  · rw [State.advance_reg, State.setReg_reg_same, BitVec.getLsbD_and]
  · rw [State.advance_reg, State.setReg_reg_same, BitVec.getLsbD_xor]

/-- What every flag writer of the ALU leaves: the result unless the flag overwrites it, the flag, and the frame. -/
theorem exec_flagWriter {i : Instr} {x : Nibble} {b f : Byte} {s : State}
    (h : exec i s = .next (s.setRegFlag x b f).advance) :
    ∃ t, exec i s = .next t ∧ (x ≠ regVF → t.reg x = b) ∧ t.reg regVF = f ∧ RegisterFrame [x, regVF] s t :=
  ⟨_, h, s.setRegFlag_reg_result b f, s.setRegFlag_reg_flag x b f, registerFrame_setRegFlag_advance s x b f⟩

/-- Settles O27: the flag is written last, and it is the carry. -/
theorem addResult : Obligations.AddResult := by
  intro x y s
  obtain ⟨t, ht, hresult, hflag, hframe⟩ := exec_flagWriter (i := .add x y) (s := s) rfl
  refine ⟨t, ht, fun hx => ?_, hflag.trans (carryFlag_eq_ite _ _), hframe⟩
  rw [hresult hx, BitVec.toNat_add]

/-- Settles O28: the two differ in the order of the operands only. -/
theorem subtractResults : Obligations.SubtractResults := by
  intro x y s
  constructor
  · obtain ⟨t, ht, hresult, hflag, hframe⟩ := exec_flagWriter (i := .sub x y) (s := s) rfl
    refine ⟨t, ht, fun hx => ?_, hflag.trans (noBorrowFlag_eq_ite _ _), hframe⟩
    rw [hresult hx, byte_sub_toNat]
  · obtain ⟨t, ht, hresult, hflag, hframe⟩ := exec_flagWriter (i := .reverseSub x y) (s := s) rfl
    refine ⟨t, ht, fun hx => ?_, hflag.trans (noBorrowFlag_eq_ite _ _), hframe⟩
    rw [hresult hx, byte_sub_toNat]

/-- Settles O29: a shift by one halves or doubles the source, and the bit it moves out is the flag. -/
theorem shiftResults : Obligations.ShiftResults := by
  intro x y s
  constructor
  · obtain ⟨t, ht, hresult, hflag, hframe⟩ := exec_flagWriter (i := .shiftRight x y) (s := s) rfl
    refine ⟨t, ht, fun hx => ?_, ?_, hframe⟩
    · rw [hresult hx, byte_ushiftRight_one_toNat]
    · rw [hflag, shiftedOutRight_toNat]
  · obtain ⟨t, ht, hresult, hflag, hframe⟩ := exec_flagWriter (i := .shiftLeft x y) (s := s) rfl
    refine ⟨t, ht, fun hx => ?_, ?_, hframe⟩
    · rw [hresult hx, byte_shiftLeft_one_toNat]
    · rw [hflag, shiftedOutLeft_toNat]

end Sys2Proof.Safety
end

section
/-! The parts of the state an instruction may write, said once for every instruction: its frame, from the frames of
the operations it is made of. -/

namespace Sys2Proof.Safety

open Sys2Proof.Machine

/-! Frames of single updates -/

/-- Replacing the framebuffer touches nothing else. -/
theorem sameExcept_setFb (s : State) (fb : Framebuffer) : SameExcept [.fb] s (s.setFb fb) := by
  intro f hf
  cases f <;> simp_all [Part.same]

/-- Setting `I` touches nothing else. -/
theorem sameExcept_setI (s : State) (w : Word) : SameExcept [.i] s (s.setI w) := by
  intro f hf
  cases f <;> simp_all [Part.same]

/-- Storing bytes touches memory only. -/
theorem sameExcept_storeBytes (s : State) (a : Nat) (bs : List Byte) : SameExcept [.mem] s (s.storeBytes a bs) := by
  intro f hf
  cases f <;> simp_all [Part.same]

/-- Loading registers from memory touches the registers only. -/
theorem sameExcept_loadRegs (s : State) (x : Nibble) (a : Nat) : SameExcept [.v] s (s.loadRegs x a) := by
  intro f hf
  cases f <;> simp_all [Part.same]

/-- Advancing `I` past a block touches nothing else. -/
theorem sameExcept_bumpI (s : State) (x : Nibble) : SameExcept [.i] s (s.bumpI x) := sameExcept_setI s _

/-- Drawing a random byte touches the draw counter only. -/
theorem sameExcept_drawn (s : State) : SameExcept [.draws] s s.drawn := by
  intro f hf
  cases f <;> simp_all [Part.same]

/-- A change within one list of parts, then a change within another. -/
theorem SameExcept.append {l l' : List Part} {s t u : State} (h : SameExcept l s t) (h' : SameExcept l' t u) :
    SameExcept (l ++ l') s u :=
  (h.mono fun _ => List.mem_append_left l').trans (h'.mono fun _ => List.mem_append_right l)

/-! What each instruction may write -/

/-- The parts an instruction may write besides `pc` and, when it raises or waits, the status. -/
def writtenParts : Instr → List Part
  | .clear => [.fb]
  | .drawSprite _ _ _ => [.fb, .v]
  | .ret | .call _ => [.stack]
  | .setImm _ _ | .addImm _ _ | .assign _ _ | .or _ _ | .and _ _ | .xor _ _ | .add _ _ | .sub _ _
  | .shiftRight _ _ | .reverseSub _ _ | .shiftLeft _ _ | .loadDelay _ => [.v]
  | .random _ _ => [.v, .draws]
  | .setDelay _ => [.delay]
  | .setSound _ => [.sound]
  | .storeNnnInI _ | .addToI _ | .loadFontAddr _ => [.i]
  | .storeBCD _ => [.mem]
  | .copyRegisters _ => [.mem, .i]
  | .fillRegisters _ => [.v, .i]
  | .jump _ | .jumpAddV0 _ | .waitKeyDownStore _ | .skipEqImm _ _ | .skipNeImm _ _ | .skipEqReg _ _
  | .skipNeReg _ _ | .skipIfKeyDown _ | .skipIfKeyNotDown _ => []

/-- `t` differs from `s` in the parts the instruction may write at most. -/
def WritesOnly (i : Instr) (s t : State) : Prop := SameExcept (.pc :: .status :: writtenParts i) s t

/-- An error writes the status alone (R244). -/
theorem writesOnly_raise (i : Instr) (k : ErrorKind) (s : State) : WritesOnly i s (s.raise k (some (encode i))) :=
  (sameExcept_setStatus s _).mono (by simp)

/-- A skip writes `pc` alone (R110). -/
theorem writesOnly_skipIf (i : Instr) (c : Bool) (s : State) : WritesOnly i s (s.skipIf c) := by
  rw [State.skipIf_eq]
  exact (sameExcept_setPc s _).mono (by simp)

/-- An instruction that writes its parts and advances. -/
theorem SameExcept.writesOnly_advance {i : Instr} {l : List Part} {s u : State} (h : SameExcept l s u)
    (hl : l = writtenParts i := by rfl) : WritesOnly i s u.advance :=
  (h.mono (by simp +contextual [hl])).trans ((sameExcept_advance u).mono (by simp))

/-- The same behind a check that raises (R59). -/
theorem writesOnly_checked {s t : State} {i : Instr} (c : Bool) (k : ErrorKind) (h : WritesOnly i s t) :
    ∃ u, (if c then raiseIn i k s else .next t) = .next u ∧ WritesOnly i s u := by
  cases c with
  | true => exact ⟨_, rfl, writesOnly_raise i k s⟩
  | false => exact ⟨_, rfl, h⟩

/-- The same on a register read as an index (R183, R210). -/
theorem writesOnly_indexed {s : State} {i : Instr} {f : Nibble → State} (d : Option Nibble) (k : ErrorKind)
    (h : ∀ n, WritesOnly i s (f n)) :
    ∃ u, d.elim (raiseIn i k s) (fun n => .next (f n)) = .next u ∧ WritesOnly i s u := by
  cases d with
  | none => exact ⟨_, rfl, writesOnly_raise i k s⟩
  | some n => exact ⟨_, rfl, h n⟩

/-- Every instruction writes only its parts. -/
theorem exec_writesOnly (i : Instr) (s : State) : ∃ t, exec i s = .next t ∧ WritesOnly i s t := by
  cases i with
  | clear => exact ⟨_, rfl, (sameExcept_setFb s _).writesOnly_advance⟩
  | drawSprite x y n =>
    exact writesOnly_checked _ _ ((sameExcept_setFb s _).append (sameExcept_setReg _ _ _)).writesOnly_advance
  | ret =>
    cases hsp : s.sp.val with
    | zero => exact ⟨_, execReturn_empty hsp, writesOnly_raise _ _ s⟩
    | succ k =>
      have hk : k < 16 := by omega
      exact ⟨_, execReturn_pop hsp hk, (sameExcept_popPc s k hk).mono (by simp [writtenParts])⟩
  | call nnn =>
    by_cases room : s.sp.val < 16
    · exact ⟨_, execCall_room room, ((sameExcept_push s _ room).append (sameExcept_setPc _ _)).mono
        (by simp [writtenParts])⟩
    · exact ⟨_, execCall_full room, writesOnly_raise _ _ s⟩
  | setImm x nn | addImm x nn | assign x y | or x y | and x y | xor x y | loadDelay x =>
    exact ⟨_, rfl, (sameExcept_setReg s x _).writesOnly_advance⟩
  | add x y | sub x y | shiftRight x y | reverseSub x y | shiftLeft x y =>
    exact ⟨_, rfl, (sameExcept_setRegFlag s x _ _).writesOnly_advance⟩
  | random x nn => exact ⟨_, rfl, ((sameExcept_setReg s x _).append (sameExcept_drawn _)).writesOnly_advance⟩
  | setDelay x => exact ⟨_, rfl, (sameExcept_setDelay s _).writesOnly_advance⟩
  | setSound x => exact ⟨_, rfl, (sameExcept_setSound s _).writesOnly_advance⟩
  | storeNnnInI nnn | addToI x => exact ⟨_, rfl, (sameExcept_setI s _).writesOnly_advance⟩
  | loadFontAddr x =>
    rw [exec_loadFontAddr_eq]
    exact writesOnly_indexed _ _ fun d => (sameExcept_setI s _).writesOnly_advance
  | storeBCD x => exact writesOnly_checked _ _ (sameExcept_storeBytes s _ _).writesOnly_advance
  | copyRegisters x =>
    exact writesOnly_checked _ _ ((sameExcept_storeBytes s _ _).append (sameExcept_bumpI _ x)).writesOnly_advance
  | fillRegisters x =>
    exact writesOnly_checked _ _ ((sameExcept_loadRegs s x _).append (sameExcept_bumpI _ x)).writesOnly_advance
  | jump nnn | jumpAddV0 nnn => exact ⟨_, rfl, (sameExcept_setPc s _).mono (by simp)⟩
  | waitKeyDownStore x => exact ⟨_, rfl, (sameExcept_setStatus s _).mono (by simp)⟩
  | skipEqImm x nn | skipNeImm x nn | skipEqReg x y | skipNeReg x y => exact ⟨_, rfl, writesOnly_skipIf _ _ s⟩
  | skipIfKeyDown x =>
    rw [exec_skipIfKeyDown_eq]
    exact writesOnly_indexed _ _ fun k => writesOnly_skipIf _ _ s
  | skipIfKeyNotDown x =>
    rw [exec_skipIfKeyNotDown_eq]
    exact writesOnly_indexed _ _ fun k => writesOnly_skipIf _ _ s

/-- The only answer an instruction gives differs in its written parts at most. -/
theorem writesOnly_of_exec {i : Instr} {s t : State} (h : exec i s = .next t) : WritesOnly i s t := by
  obtain ⟨u, hu, hwrites⟩ := exec_writesOnly i s
  obtain rfl := next_eq (hu.symm.trans h)
  exact hwrites

end Sys2Proof.Safety
end

section
/-! The display (O32, O33, O35, O36): the writers of the framebuffer, and a drawn sprite as the pixels it covers. -/

namespace Sys2Proof.Safety

open Sys2Proof.Machine

/-! The writers of the framebuffer (R166) -/

theorem fb_mem_writtenParts_iff (i : Instr) :
    Part.fb ∈ writtenParts i ↔ i = .clear ∨ ∃ x y n, i = .drawSprite x y n := by
  cases i <;> simp [writtenParts]

/-- An instruction that changes the framebuffer is one of the two writers. -/
theorem display_of_exec_fb_ne {i : Instr} {s t : State} (h : exec i s = .next t) (hfb : t.fb ≠ s.fb) :
    i = .clear ∨ ∃ x y n, i = .drawSprite x y n := by
  rw [← fb_mem_writtenParts_iff]
  refine Decidable.byContradiction fun hnot => hfb ?_
  exact writesOnly_of_exec h .fb (by simpa using hnot)

/-- A key press leaves the framebuffer alone (R214). -/
theorem keyPress_fb (s : State) (k : Nibble) : (s.keyPress k).fb = s.fb := by
  obtain ⟨_, _, he⟩ | ⟨_, he⟩ := s.keyPress_eq k <;> rw [he] <;> rfl

/-- An abort leaves the framebuffer alone (R261). -/
theorem abort_fb (s : State) : s.abort.fb = s.fb := by
  obtain ⟨_, he⟩ | ⟨_, he⟩ := s.abort_eq <;> rw [he]
  rfl

/-- Settles O36: no host action, wait or error writes the framebuffer, and of the instructions only the two do. -/
theorem onlyDisplayInstructionsWriteFramebuffer : Obligations.OnlyDisplayInstructionsWriteFramebuffer := by
  intro s t ht hfb
  obtain ⟨q, n, hturn⟩ := step_turn_cases s
  obtain ⟨hcore, hs⟩ | hs | ⟨k, hs⟩ | ⟨k, hs⟩ | hs := hturn <;> rw [hs] at ht
  · obtain ⟨rfl, -⟩ | ⟨-, -, rfl⟩ | ⟨-, -, rfl⟩ | ⟨hrun, -, i, hdecode, hexec⟩ := State.coreTurn_next ht
    · exact absurd rfl hfb
    · exact absurd rfl hfb
    · exact absurd rfl hfb
    · exact ⟨hrun, ⟨_, hcore⟩, i, hdecode, display_of_exec_fb_ne hexec hfb⟩
  · obtain rfl := next_eq ht
    exact absurd rfl hfb
  · obtain rfl := next_eq ht
    exact absurd (keyPress_fb _ k) hfb
  · obtain rfl := next_eq ht
    exact absurd rfl hfb
  · obtain rfl := next_eq ht
    exact absurd (abort_fb _) hfb

/-- Settles O32: the blank framebuffer, then the advance. -/
theorem clearUnsetsEveryPixel : Obligations.ClearUnsetsEveryPixel := fun s =>
  ⟨_, rfl, Framebuffer.pixel_blank, (sameExcept_setFb s _).advanceFrame rfl⟩

/-- States that show the same pixels have the same framebuffer. -/
theorem fb_eq_of_pixel {s t : State} (h : ∀ px py, t.pixel px py = s.pixel px py) : t.fb = s.fb :=
  Framebuffer.ext_pixel h

/-! Drawing a sprite (R162, R163, R165) -/

/-- The pixels with a 1-bit of the sprite are those it covers. -/
theorem mem_spriteCells_iff_covers (s : State) (base : Nat) (xs ys : Byte) (n : Nat) (px : Fin 64) (py : Fin 32) :
    (true, px, py) ∈ spriteCells s base xs ys n ↔ SpriteCovers s base xs ys n px py :=
  mem_spriteCells s base xs ys n (px, py)

section
variable (s : State) (base : Nat) (xs ys : Byte) {n : Nat} (hn : n ≤ 15)
include hn

theorem drawRows_pixel_of_covers {px : Fin 64} {py : Fin 32} (h : SpriteCovers s base xs ys n px py) :
    (drawRows s base xs ys n).fb.pixel px py = !s.pixel px py := by
  rw [(drawRows_spec s base xs ys n hn).1 (px, py), decide_eq_true ((mem_spriteCells_iff_covers ..).2 h)]
  exact Bool.xor_true _

theorem drawRows_pixel_of_not_covers {px : Fin 64} {py : Fin 32} (h : ¬ SpriteCovers s base xs ys n px py) :
    (drawRows s base xs ys n).fb.pixel px py = s.pixel px py := by
  rw [(drawRows_spec s base xs ys n hn).1 (px, py), decide_eq_false (mt (mem_spriteCells_iff_covers ..).1 h)]
  exact Bool.xor_false _

theorem drawRows_collision_iff :
    (drawRows s base xs ys n).collision = true ↔
      ∃ px py, SpriteCovers s base xs ys n px py ∧ s.pixel px py = true := by
  simp only [(drawRows_spec s base xs ys n hn).2, Prod.exists, mem_spriteCells_iff_covers]
  rfl

end

/-- A draw touches the framebuffer, the registers and `pc` only. -/
theorem sameExcept_draw (s : State) (fb : Framebuffer) (flag : Byte) :
    SameExcept [.fb, .v, .pc] s ((s.setFb fb).setReg regVF flag).advance :=
  ((sameExcept_setFb s fb).append (sameExcept_setReg _ regVF flag)).append (sameExcept_advance _)

/-- A sprite whose bytes lie in memory is drawn, and the collision is the flag (R162). -/
theorem exec_drawSprite_draws {x y n : Nibble} {s : State} (h : n.toNat = 0 ∨ s.i.toNat + n.toNat ≤ 0x1000) :
    exec (.drawSprite x y n) s =
      .next ((s.setFb (drawRows s s.i.toNat (s.reg x) (s.reg y) n.toNat).fb).setReg regVF
        (flagByte (drawRows s s.i.toNat (s.reg x) (s.reg y) n.toNat).collision)).advance := by
  have hpass : ¬ checkReadFails s.i.toNat n.toNat = true := by
    rw [checkReadFails_iff]
    omega
  exact if_neg hpass

/-- A draw that went past its instruction did not raise, so the sprite's bytes lie in memory. -/
theorem sprite_inMemory_of_advanced {x y n : Nibble} {s t : State} (h : exec (.drawSprite x y n) s = .next t)
    (hpc : t.pc = s.pc + 2) : n.toNat = 0 ∨ s.i.toNat + n.toNat ≤ 0x1000 := by
  refine Decidable.byContradiction fun hout => ?_
  have hfails : checkReadFails s.i.toNat n.toNat = true := (checkReadFails_iff _ _).2 (by omega)
  obtain rfl := next_eq (h.symm.trans (exec_drawSprite_raises hfails))
  rw [State.raise_pc] at hpc
  bv_omega

/-- Settles O33: the draw toggles what the sprite covers, and the flag is written after the framebuffer. -/
theorem drawSpriteXorsAndReportsCollision : Obligations.DrawSpriteXorsAndReportsCollision := by
  intro x y n s h
  have hn : n.toNat ≤ 15 := Nat.le_of_lt_succ n.isLt
  have hcollision := drawRows_collision_iff s s.i.toNat (s.reg x) (s.reg y) hn
  refine ⟨_, exec_drawSprite_draws h, fun px py hc => ?_, fun px py hc => ?_, fun hset => ?_, fun hunset => ?_, rfl,
    fun r hr => ?_, (sameExcept_draw s _ _).mono (by simp)⟩
  · exact drawRows_pixel_of_covers s _ _ _ hn hc
  · exact drawRows_pixel_of_not_covers s _ _ _ hn hc
  · rw [State.advance_reg, State.setReg_reg_same, hcollision.2 hset]
    rfl
  · rw [State.advance_reg, State.setReg_reg_same, Bool.eq_false_iff.2 (mt hcollision.1 hunset)]
    rfl
  · exact State.setReg_reg_other _ _ hr

/-- What a sprite covers is decided by memory alone. -/
theorem SpriteCovers.congr_mem {s t : State} (h : ∀ a, t.readByte a = s.readByte a) (base : Nat) (xs ys : Byte)
    (n : Nat) (px : Fin 64) (py : Fin 32) :
    SpriteCovers t base xs ys n px py ↔ SpriteCovers s base xs ys n px py := by
  simp only [SpriteCovers, h]

/-- Settles O35: the second draw covers the same pixels, so it toggles back what the first toggled, and it finds set
what the first found unset (O33). -/
theorem secondDrawUndoesFirst : Obligations.SecondDrawUndoesFirst := by
  intro x y n s t u hst hpc hx hy htu
  have hin := sprite_inMemory_of_advanced hst hpc
  obtain ⟨t', ht', hcov, hunc, -, -, -, -, hframe⟩ := drawSpriteXorsAndReportsCollision x y n s hin
  obtain rfl := next_eq (ht'.symm.trans hst)
  have hi : t.i = s.i := hframe .i (by simp)
  have hmem : ∀ a, t.readByte a = s.readByte a := hframe .mem (by simp)
  obtain ⟨u', hu', hcov', hunc', hset, hunset, -⟩ := drawSpriteXorsAndReportsCollision x y n t (by rwa [hi])
  obtain rfl := next_eq (hu'.symm.trans htu)
  simp only [hi, hx, hy, SpriteCovers.congr_mem hmem] at hcov' hunc' hset hunset
  constructor
  · refine fb_eq_of_pixel fun px py => ?_
    by_cases hc : SpriteCovers s s.i.toNat (s.reg x) (s.reg y) n.toNat px py
    · rw [hcov' px py hc, hcov px py hc, Bool.not_not]
    · rw [hunc' px py hc, hunc px py hc]
  · have hfound : ∀ px py, SpriteCovers s s.i.toNat (s.reg x) (s.reg y) n.toNat px py ∧ t.pixel px py = true ↔
        SpriteCovers s s.i.toNat (s.reg x) (s.reg y) n.toNat px py ∧ s.pixel px py = false := by
      intro px py
      refine and_congr_right fun hc => ?_
      rw [hcov px py hc, Bool.not_eq_true']
    simp only [hfound] at hset hunset
    refine ⟨fun hflag => ?_, hset⟩
    refine Classical.byContradiction fun hnone => ?_
    rw [hunset hnone] at hflag
    exact absurd hflag (by decide)

end Sys2Proof.Safety
end

section
/-! The index register and memory (O37, O39, O40, O41, O43): a memory-block instruction whose range check passes is
one block move, and what a block move leaves at every address is a law of memory. -/

namespace Sys2Proof.Machine

/-! The values of `I` (R182, R185, R186) -/

/-- R182: the sum is modulo 65536. -/
theorem add_zextByte_toNat (w : Word) (b : Byte) : (w + zextByte b).toNat = (w.toNat + b.toNat) % 65536 := by
  rw [BitVec.toNat_add, zextByte_toNat]

/-- R185, R186: `I` is left just past the block, modulo 65536. -/
theorem State.bumpI_i_toNat (s : State) (x : Nibble) :
    (s.bumpI x).i.toNat = (s.i.toNat + x.toNat + 1) % 65536 := by
  rw [State.bumpI_i, BitVec.toNat_add, BitVec.toNat_ofNat, Nat.add_mod_mod, Nat.add_assoc]

/-! What memory holds after a store (R55, R56) -/

/-- A stored byte is read back. -/
theorem State.readByte_storeBytes_inside (s : State) (a : Nat) (bs : List Byte) {j : Nat} (h : j < bs.length) :
    (s.storeBytes a bs).readByte (a + j) = bs[j] := Memory.read_writeBytes_inside bs s.mem a h

/-- A store leaves every byte outside its block alone. -/
theorem State.readByte_storeBytes_outside (s : State) {a k : Nat} (bs : List Byte)
    (h : k < a ∨ a + bs.length ≤ k) : (s.storeBytes a bs).readByte k = s.readByte k :=
  Memory.read_writeBytes_outside bs s.mem h

/-- A digit fits its byte, so it is stored exactly (R184). -/
theorem bcdDigits_map_toNat (v : Byte) :
    (bcdDigits v).map BitVec.toNat = [v.toNat / 100, v.toNat / 10 % 10, v.toNat % 10] := by
  have hv := v.isLt
  have hhundreds : v.toNat / 100 % 256 = v.toNat / 100 := by omega
  have htens : v.toNat / 10 % 10 % 256 = v.toNat / 10 % 10 := by omega
  have hones : v.toNat % 10 % 256 = v.toNat % 10 := by omega
  simp [bcdDigits, hhundreds, htens, hones]

/-- The digit stored at each of the three addresses (R184). -/
theorem State.readByte_storeBytes_bcdDigits (s : State) (a : Nat) (v : Byte) (j : Nat) (hj : j < 3) :
    ((s.storeBytes a (bcdDigits v)).readByte (a + j)).toNat =
      [v.toNat / 100, v.toNat / 10 % 10, v.toNat % 10][j] := by
  rw [s.readByte_storeBytes_inside a (bcdDigits v) hj]
  simp only [← bcdDigits_map_toNat]
  exact (List.getElem_map BitVec.toNat).symm

/-- `Vk` is stored at its place in the block (R185). -/
theorem State.readByte_storeBytes_regsUpTo (s : State) (a : Nat) {x k : Nibble} (hk : k.toNat ≤ x.toNat) :
    (s.storeBytes a (s.regsUpTo x)).readByte (a + k.toNat) = s.reg k := by
  have hlt : k.toNat < (s.regsUpTo x).length := by
    rw [State.regsUpTo_length]
    omega
  rw [s.readByte_storeBytes_inside a _ hlt, State.regsUpTo_getElem]

/-! A range check that passes (R57, R58) -/

/-- R184: the digits are stored. -/
theorem exec_storeBCD_stores (x : Nibble) {s : State} (hend : s.i.toNat + 2 ≤ 0xFFF)
    (hlimit : s.cfg.writeProtectLimit ≤ s.i.toNat) :
    exec (.storeBCD x) s = .next (s.storeBytes s.baseAddr (bcdDigits (s.reg x))).advance := by
  have hpass : ¬ checkWriteFails s.cfg.writeProtectLimit s.i.toNat 3 = true := by
    rw [checkWriteFails_iff]
    omega
  exact if_neg hpass

/-- R185: the registers are stored. -/
theorem exec_copyRegisters_stores {x : Nibble} {s : State} (hend : s.i.toNat + x.toNat ≤ 0xFFF)
    (hlimit : s.cfg.writeProtectLimit ≤ s.i.toNat) :
    exec (.copyRegisters x) s = .next ((s.storeBytes s.baseAddr (s.regsUpTo x)).bumpI x).advance := by
  have hpass : ¬ checkWriteFails s.cfg.writeProtectLimit s.i.toNat (x.toNat + 1) = true := by
    rw [checkWriteFails_iff]
    omega
  exact if_neg hpass

/-- R186: the registers are loaded. -/
theorem exec_fillRegisters_loads {x : Nibble} {s : State} (hend : s.i.toNat + x.toNat ≤ 0xFFF) :
    exec (.fillRegisters x) s = .next ((s.loadRegs x s.baseAddr).bumpI x).advance := by
  have hpass : ¬ checkReadFails s.i.toNat (x.toNat + 1) = true := by
    rw [checkReadFails_iff]
    omega
  exact if_neg hpass

end Sys2Proof.Machine

namespace Sys2Proof.Safety

open Sys2Proof.Machine

/-- Settles O37: each of the two is one write of `I`, then the advance. -/
theorem indexRegisterWrites : Obligations.IndexRegisterWrites := fun nnn x s =>
  ⟨⟨_, rfl, zextAddr_toNat nnn, (sameExcept_setI s _).advanceFrame rfl⟩,
    ⟨_, rfl, add_zextByte_toNat s.i (s.reg x), (sameExcept_setI s _).advanceFrame rfl⟩⟩

/-- Settles O39: the check passes, so the three digits are stored, and nothing else is written but `pc`. -/
theorem storeBcdResult : Obligations.StoreBcdResult := by
  intro x s hend hlimit
  have hdigit := s.readByte_storeBytes_bcdDigits s.baseAddr (s.reg x)
  refine ⟨_, exec_storeBCD_stores x hend hlimit, hdigit 0 (by decide), hdigit 1 (by decide),
    hdigit 2 (by decide), fun a ha => ?_, (sameExcept_storeBytes s _ _).advanceFrame rfl⟩
  refine s.readByte_storeBytes_outside _ ?_
  rw [bcdDigits_length]
  omega

/-- Settles O40: the check passes, so the block of registers is stored and `I` moves past it. -/
theorem copyRegistersResult : Obligations.CopyRegistersResult := by
  intro x s hend hlimit
  refine ⟨_, exec_copyRegisters_stores hend hlimit, fun k hk => s.readByte_storeBytes_regsUpTo _ hk, fun a ha => ?_,
    State.bumpI_i_toNat _ x, ((sameExcept_storeBytes s _ _).append (sameExcept_bumpI _ x)).advanceFrame rfl⟩
  refine s.readByte_storeBytes_outside _ ?_
  rw [State.regsUpTo_length]
  omega

/-- Settles O41: the check passes, so the block of registers is loaded and `I` moves past it. -/
theorem fillRegistersResult : Obligations.FillRegistersResult := by
  intro x s hend
  refine ⟨_, exec_fillRegisters_loads hend, fun k hk => ?_, fun k hk => ?_, ?_,
    ((sameExcept_loadRegs s x s.baseAddr).append (sameExcept_bumpI _ x)).advanceFrame
      (by rw [State.bumpI_pc, State.loadRegs_pc])⟩
  · rw [State.advance_reg, State.bumpI_reg, State.loadRegs_reg, if_pos hk]
  · rw [State.advance_reg, State.bumpI_reg, State.loadRegs_reg, if_neg (Nat.not_le.2 hk)]
  · rw [State.advance_i, State.bumpI_i_toNat, State.loadRegs_i]

/-- Settles O43: the fill reads the bytes the copy stored (O40, O41), for it reads from the same base in the same
memory. -/
theorem fillRestoresCopiedRegisters : Obligations.FillRestoresCopiedRegisters := by
  intro x s t u hend hlimit hcopy hmem hi
  obtain ⟨t', ht', hstored, -, hti, -⟩ := copyRegistersResult x s hend hlimit
  obtain rfl := next_eq (ht'.symm.trans hcopy)
  obtain ⟨r, hr, hloaded, -, hri, -⟩ := fillRegistersResult x u (by rwa [hi])
  have hbase : u.baseAddr = s.baseAddr := congrArg BitVec.toNat hi
  have hbyte (a : Nat) : u.readByte a = t.readByte a := congrArg (Memory.read · a) hmem
  refine ⟨r, hr, fun k hk => ?_, BitVec.eq_of_toNat_eq (by rw [hri, hti, hi])⟩
  calc
    r.reg k = u.readByte (u.baseAddr + k.toNat) := hloaded k hk
    _ = t.readByte (s.baseAddr + k.toNat) := by rw [hbyte, hbase]
    _ = s.reg k := hstored k hk

end Sys2Proof.Safety
end

section
/-! The key skips (O24): a key index in `0..15` makes the instruction a skip on that key and nothing more; a larger one
is a cause of `OutOfBoundsAccess` (O42). -/

namespace Sys2Proof.Machine

/-! What a skip does to `pc` (R110) -/

/-- Four bytes on when the condition holds, two when not. -/
@[simp] theorem State.skipIf_pc (s : State) (c : Bool) : (s.skipIf c).pc = if c then s.pc + 4 else s.pc + 2 := by
  rw [State.skipIf_eq, State.setPc_pc]

/-! A key index in range (R210) -/

/-- The index names its key. -/
theorem State.exists_smallReg_eq_some {s : State} {x : Nibble} (h : (s.reg x).toNat < 16) :
    ∃ k, s.smallReg x = some k ∧ s.keyDown k = s.keys[(s.reg x).toNat] := by
  refine ⟨BitVec.ofNatLT (s.reg x).toNat h, ?_, rfl⟩
  rw [State.smallReg_some, BitVec.toNat_ofNatLT]

/-- R211. -/
theorem exec_skipIfKeyDown_skips {x : Nibble} {s : State} (h : (s.reg x).toNat < 16) :
    exec (.skipIfKeyDown x) s = .next (s.skipIf s.keys[(s.reg x).toNat]) := by
  obtain ⟨k, hk, hdown⟩ := State.exists_smallReg_eq_some h
  simp only [exec_skipIfKeyDown_eq, hk, Option.elim_some, hdown]

/-- R212. -/
theorem exec_skipIfKeyNotDown_skips {x : Nibble} {s : State} (h : (s.reg x).toNat < 16) :
    exec (.skipIfKeyNotDown x) s = .next (s.skipIf (!s.keys[(s.reg x).toNat])) := by
  obtain ⟨k, hk, hdown⟩ := State.exists_smallReg_eq_some h
  simp only [exec_skipIfKeyNotDown_eq, hk, Option.elim_some, hdown]

end Sys2Proof.Machine

namespace Sys2Proof.Safety

open Sys2Proof.Machine

/-- A skip touches `pc` only (R110). -/
theorem sameExcept_skipIf (s : State) (c : Bool) : SameExcept [.pc] s (s.skipIf c) := by
  rw [State.skipIf_eq]
  exact sameExcept_setPc s _

/-- Settles O24: in range each is a skip on the key, or on its negation; out of range each only raises (O42). -/
theorem keySkips : Obligations.KeySkips := by
  intro x s
  refine ⟨fun hkey => ⟨?down, ?up⟩, fun hlarge => ⟨?downRaises, ?upRaises⟩⟩
  case down => exact ⟨_, exec_skipIfKeyDown_skips hkey, sameExcept_skipIf s _, s.skipIf_pc _⟩
  case up =>
    refine ⟨_, exec_skipIfKeyNotDown_skips hkey, sameExcept_skipIf s _, ?_⟩
    cases s.keys[(s.reg x).toNat] <;> simp
  case downRaises => exact exec_skipIfKeyDown_raises ((s.smallReg_none x).2 hlarge)
  case upRaises => exact exec_skipIfKeyNotDown_raises ((s.smallReg_none x).2 hlarge)

end Sys2Proof.Safety
end

section
/-! The host's actions (O14, O47, O49): a tick writes the timers, a key release its key, and in a terminal state every
step that is taken is a host action that keeps the status. -/

namespace Sys2Proof.Safety

open Sys2Proof.Machine

/-- Settles O47: the turn is the tick, which takes one from each timer above 0. -/
theorem tickDecrementsTimers : Obligations.TickDecrementsTimers := by
  intro s s' h
  obtain ⟨q, n, rfl⟩ := h.eq_setSchedule
  exact ⟨_, h.step_eq, tickTimer_toNat s.delay, tickTimer_toNat s.sound, sameExcept_tick _⟩

/-- Settles O49: the turn sets the one key to up. -/
theorem keyReleaseChangesKeypadOnly : Obligations.KeyReleaseChangesKeypadOnly := by
  intro k s s' h
  obtain ⟨q, n, rfl⟩ := h.eq_setSchedule
  refine ⟨_, h.step_eq, ?_, fun j hj => ?_, sameExcept_setKey _ k false⟩
  · exact (State.setKey_keyDown _ k k false).trans (if_pos rfl)
  · exact (State.setKey_keyDown _ k j false).trans (if_neg hj)

/-! The terminal states (R246) -/

section
variable {s : State} (h : (∃ e, s.status = .halted e) ∨ s.status = .stopped)
include h

/-- The core never steps again: its turn answers no next state (R100). -/
theorem coreTurn_ne_next_of_terminal {t : State} : s.coreTurn ≠ .next t := by
  obtain ⟨e, he⟩ | he := h <;> simp [State.coreTurn, he]

/-- A key press reaches the keypad view alone (R214). -/
theorem keyPress_eq_of_terminal (k : Nibble) : s.keyPress k = s.setKey k true := by
  obtain ⟨x, hx, -⟩ | ⟨-, he⟩ := s.keyPress_eq k
  · simp [hx] at h
  · exact he

/-- An abort is not enabled (R261). -/
theorem abort_eq_of_terminal : s.abort = s := by
  obtain ⟨hrun | ⟨x, hx⟩, -⟩ | ⟨-, he⟩ := s.abort_eq
  · simp [hrun] at h
  · simp [hx] at h
  · exact he

end

/-- Settles O14: no core turn is taken there, a tick writes the timers, a key going down or up the keypad, and an abort
nothing. -/
theorem terminalStatesAreTerminal : Obligations.TerminalStatesAreTerminal := by
  intro s t hterm ht
  obtain ⟨q, n, hturn⟩ := step_turn_cases s
  have hsched : SameExcept [.delay, .sound, .keys, .turns] s (s.setSchedule q n) :=
    (sameExcept_setSchedule s q n).mono (by simp)
  have hterm' : (∃ e, (s.setSchedule q n).status = .halted e) ∨ (s.setSchedule q n).status = .stopped := hterm
  obtain ⟨-, hs⟩ | hs | ⟨k, hs⟩ | ⟨k, hs⟩ | hs := hturn <;> rw [hs] at ht
  · exact absurd ht (coreTurn_ne_next_of_terminal hterm')
  · obtain rfl := next_eq ht
    exact ⟨rfl, hsched.trans ((sameExcept_tick _).mono (by simp))⟩
  · obtain rfl := next_eq ht
    rw [keyPress_eq_of_terminal hterm']
    exact ⟨rfl, hsched.trans ((sameExcept_setKey _ k true).mono (by simp))⟩
  · obtain rfl := next_eq ht
    exact ⟨rfl, hsched.trans ((sameExcept_setKey _ k false).mono (by simp))⟩
  · obtain rfl := next_eq ht
    rw [abort_eq_of_terminal hterm']
    exact ⟨rfl, hsched⟩

end Sys2Proof.Safety
end

section
/-! The stack errors (O17): each instruction raises errors of one kind at most, and only `Call` and `Return` raise those
of the stack. -/

namespace Sys2Proof.Machine

/-! What holds of the raised state and of the state the operation gives holds of the answer -/

/-- Behind a check that raises (R59). -/
theorem exists_next_of_check {P : State → Prop} {s t : State} {i : Instr} {k : ErrorKind} (c : Bool)
    (hraise : P (s.raise k (some (encode i)))) (hpass : P t) :
    ∃ u, (if c then raiseIn i k s else .next t) = .next u ∧ P u := by
  cases c with
  | true => exact ⟨_, rfl, hraise⟩
  | false => exact ⟨_, rfl, hpass⟩

/-- On a register read as an index (R183, R210). -/
theorem exists_next_of_index {P : State → Prop} {s : State} {f : Nibble → State} {i : Instr} {k : ErrorKind}
    (d : Option Nibble) (hraise : P (s.raise k (some (encode i)))) (hpass : ∀ n, P (f n)) :
    ∃ u, d.elim (raiseIn i k s) (fun n => .next (f n)) = .next u ∧ P u := by
  cases d with
  | none => exact ⟨_, rfl, hraise⟩
  | some n => exact ⟨_, rfl, hpass n⟩

end Sys2Proof.Machine

namespace Sys2Proof.Safety

open Sys2Proof.Machine

/-- The one error kind an instruction can raise, if it raises at all (R242, R243). -/
def raisedKind : Instr → ErrorKind
  | .call _ => .stackOverflow
  | .ret => .stackUnderflow
  | _ => .outOfBoundsAccess

/-- A halt in `t` is one `s` was in already, or an error of the instruction's kind. -/
def RaisesOnlyItsKind (i : Instr) (s t : State) : Prop :=
  ∀ e, t.status = .halted e → s.status = .halted e ∨ e.kind = raisedKind i

/-- Raising its kind. -/
theorem raisesOnlyItsKind_raise {i : Instr} {s : State} {k : ErrorKind} (hk : k = raisedKind i := by rfl) :
    RaisesOnlyItsKind i s (s.raise k (some (encode i))) := by
  intro e he
  obtain rfl : _ = e := Status.halted.inj he
  exact .inr hk

/-- Keeping the status. -/
theorem raisesOnlyItsKind_of_status_eq {i : Instr} {s t : State} (h : t.status = s.status := by rfl) :
    RaisesOnlyItsKind i s t := fun _ he => .inl (h.symm.trans he)

/-- A skip keeps the status. -/
theorem raisesOnlyItsKind_skipIf {i : Instr} {s : State} {c : Bool} : RaisesOnlyItsKind i s (s.skipIf c) := by
  rw [State.skipIf_eq]
  exact raisesOnlyItsKind_of_status_eq

/-- Every instruction raises errors of its kind only. -/
theorem exec_raisesOnlyItsKind (i : Instr) (s : State) : ∃ t, exec i s = .next t ∧ RaisesOnlyItsKind i s t := by
  cases i
  case call nnn =>
    by_cases room : s.sp.val < 16
    · exact ⟨_, execCall_room room, raisesOnlyItsKind_of_status_eq⟩
    · exact ⟨_, execCall_full room, raisesOnlyItsKind_raise⟩
  case ret =>
    cases hsp : s.sp.val with
    | zero => exact ⟨_, execReturn_empty hsp, raisesOnlyItsKind_raise⟩
    | succ k =>
      have hk : k < 16 := by omega
      exact ⟨_, execReturn_pop hsp hk, raisesOnlyItsKind_of_status_eq⟩
  case waitKeyDownStore x => exact ⟨_, rfl, nofun⟩
  case skipIfKeyDown x =>
    rw [exec_skipIfKeyDown_eq]
    exact exists_next_of_index _ raisesOnlyItsKind_raise fun _ => raisesOnlyItsKind_skipIf
  case skipIfKeyNotDown x =>
    rw [exec_skipIfKeyNotDown_eq]
    exact exists_next_of_index _ raisesOnlyItsKind_raise fun _ => raisesOnlyItsKind_skipIf
  case loadFontAddr x =>
    rw [exec_loadFontAddr_eq]
    exact exists_next_of_index _ raisesOnlyItsKind_raise fun _ => raisesOnlyItsKind_of_status_eq
  case drawSprite x y n => exact exists_next_of_check _ raisesOnlyItsKind_raise raisesOnlyItsKind_of_status_eq
  case storeBCD x => exact exists_next_of_check _ raisesOnlyItsKind_raise raisesOnlyItsKind_of_status_eq
  case copyRegisters x => exact exists_next_of_check _ raisesOnlyItsKind_raise raisesOnlyItsKind_of_status_eq
  case fillRegisters x =>
    exact exists_next_of_check _ raisesOnlyItsKind_raise (raisesOnlyItsKind_of_status_eq (by simp))
  case skipEqImm x nn => exact ⟨_, rfl, raisesOnlyItsKind_skipIf⟩
  case skipNeImm x nn => exact ⟨_, rfl, raisesOnlyItsKind_skipIf⟩
  case skipEqReg x y => exact ⟨_, rfl, raisesOnlyItsKind_skipIf⟩
  case skipNeReg x y => exact ⟨_, rfl, raisesOnlyItsKind_skipIf⟩
  all_goals exact ⟨_, rfl, raisesOnlyItsKind_of_status_eq⟩

/-- An error that a running core's instruction raises is of the instruction's kind. -/
theorem kind_eq_raisedKind_of_exec {i : Instr} {s t : State} {e : ErrorRecord} (hrun : s.status = .running)
    (hexec : exec i s = .next t) (he : t.status = .halted e) : e.kind = raisedKind i := by
  obtain ⟨u, hu, honly⟩ := exec_raisesOnlyItsKind i s
  obtain rfl := next_eq (hu.symm.trans hexec)
  obtain hs | hkind := honly e he
  · exact absurd (hrun.symm.trans hs) nofun
  · exact hkind

theorem raisedKind_eq_stackOverflow_iff (i : Instr) : raisedKind i = .stackOverflow ↔ ∃ nnn, i = .call nnn := by
  cases i <;> simp [raisedKind]

theorem raisedKind_eq_stackUnderflow_iff (i : Instr) : raisedKind i = .stackUnderflow ↔ i = .ret := by
  cases i <;> simp [raisedKind]

/-- A `Call` that halts a running core found the stack full (R107). -/
theorem full_of_call_halts {nnn : Addr12} {s t : State} {e : ErrorRecord} (hrun : s.status = .running)
    (hexec : exec (.call nnn) s = .next t) (he : t.status = .halted e) : s.sp.val = 16 := by
  by_cases room : s.sp.val < 16
  · obtain rfl := next_eq ((execCall_room room).symm.trans hexec)
    exact absurd (hrun.symm.trans he) nofun
  · omega

/-- A `Return` that halts a running core found the stack empty (R108). -/
theorem empty_of_ret_halts {s t : State} {e : ErrorRecord} (hrun : s.status = .running)
    (hexec : exec .ret s = .next t) (he : t.status = .halted e) : s.sp.val = 0 := by
  cases hsp : s.sp.val with
  | zero => rfl
  | succ k =>
    have hk : k < 16 := by omega
    obtain rfl := next_eq ((execReturn_pop hsp hk).symm.trans hexec)
    exact absurd (hrun.symm.trans he) nofun

/-- Settles O17: a stack error is the kind of `Call` or of `Return` alone, and at any other depth these keep the
status. -/
theorem stackErrorsOnlyFromCallAndReturn : Obligations.StackErrorsOnlyFromCallAndReturn := by
  refine ⟨fun nnn s hfull => execCall_full (by omega), fun s hempty => execReturn_empty hempty,
    fun i s t e hrun hexec he => ?_⟩
  rw [kind_eq_raisedKind_of_exec hrun hexec he, raisedKind_eq_stackOverflow_iff, raisedKind_eq_stackUnderflow_iff]
  refine ⟨?_, ?_⟩
  · rintro ⟨nnn, rfl⟩
    exact ⟨full_of_call_halts hrun hexec he, nnn, rfl⟩
  · rintro rfl
    exact ⟨empty_of_ret_halts hrun hexec he, rfl⟩

end Sys2Proof.Safety
end

section
/-! The keypad (O57): every operation but the key skips commutes with the replacing of the keypad view, and no
instruction writes it. -/

namespace Sys2Proof.Machine

/-- Replaces the host's keypad view. -/
def State.setKeys (s : State) (keys : Vector Bool 16) : State := { s with keys := keys }

/-- A skip commutes with it. -/
theorem State.setKeys_skipIf (s : State) (keys : Vector Bool 16) (c : Bool) :
    (s.setKeys keys).skipIf c = (s.skipIf c).setKeys keys := by
  cases c <;> rfl

end Sys2Proof.Machine

namespace Sys2Proof.Safety

open Sys2Proof.Machine

/-- The operation answers a next state, and from the state updated by `u` that next state updated by `u`: it reads
nothing that `u` changes. -/
def CommutesWith (u : State → State) (f : State → Out) : Prop :=
  ∀ s, ∃ t, f s = .next t ∧ f (u s) = .next (u t)

/-- Two such operations behind a check that the update leaves alone. -/
theorem CommutesWith.ite {u : State → State} {c : State → Bool} {f g : State → Out} (hc : ∀ s, c (u s) = c s)
    (hf : CommutesWith u f) (hg : CommutesWith u g) : CommutesWith u fun s => if c s then f s else g s := by
  intro s
  simp only [hc]
  cases c s with
  | true => exact hf s
  | false => exact hg s

/-- The same on a register read as an index (R183, R210). -/
theorem CommutesWith.indexed {u : State → State} {x : Nibble} {f : State → Out} {g : Nibble → State → Out}
    (hx : ∀ s, (u s).smallReg x = s.smallReg x) (hf : CommutesWith u f) (hg : ∀ d, CommutesWith u (g d)) :
    CommutesWith u fun s => (s.smallReg x).elim (f s) (g · s) := by
  intro s
  simp only [hx]
  cases s.smallReg x with
  | none => exact hf s
  | some d => exact hg d s

/-- Such an operation does the same from both states, but for the update. -/
theorem CommutesWith.related {u : State → State} {f : State → Out} (h : CommutesWith u f) (s : State) :
    RelatedOutcomes (fun t t' => t' = u t) (f s) (f (u s)) := by
  obtain ⟨t, ht, hut⟩ := h s
  exact .inl ⟨t, u t, ht, hut, rfl⟩

/-! Which operations do not read the keypad -/

section
variable (keys : Vector Bool 16)

/-- Raising an error (R244). -/
theorem commutesWith_setKeys_raiseIn (i : Instr) (k : ErrorKind) : CommutesWith (·.setKeys keys) (raiseIn i k) :=
  fun _ => ⟨_, rfl, rfl⟩

/-- A skip on a condition that does not read it (R110). -/
theorem commutesWith_setKeys_skipIf {c : State → Bool} (hc : ∀ s, c (s.setKeys keys) = c s) :
    CommutesWith (·.setKeys keys) fun s => .next (s.skipIf (c s)) := by
  intro s
  refine ⟨_, rfl, ?_⟩
  simp only [hc, State.setKeys_skipIf]

/-- `Call` (R107). -/
theorem commutesWith_setKeys_execCall (nnn : Addr12) : CommutesWith (·.setKeys keys) (execCall nnn) := by
  intro s
  by_cases room : s.sp.val < 16
  · exact ⟨_, execCall_room room, execCall_room (s := s.setKeys keys) room⟩
  · exact ⟨_, execCall_full room, execCall_full (s := s.setKeys keys) room⟩

/-- `Return` (R108). -/
theorem commutesWith_setKeys_execReturn : CommutesWith (·.setKeys keys) execReturn := by
  intro s
  cases hsp : s.sp.val with
  | zero => exact ⟨_, execReturn_empty hsp, execReturn_empty (s := s.setKeys keys) hsp⟩
  | succ k =>
    have hk : k < 16 := by omega
    exact ⟨_, execReturn_pop hsp hk, execReturn_pop (s := s.setKeys keys) hsp hk⟩

/-- Every instruction but the two key skips. -/
theorem commutesWith_setKeys_exec {i : Instr} (hskip : ∀ x, i ≠ .skipIfKeyDown x ∧ i ≠ .skipIfKeyNotDown x) :
    CommutesWith (·.setKeys keys) (exec i) := by
  cases i
  case skipIfKeyDown x => exact absurd rfl (hskip x).1
  case skipIfKeyNotDown x => exact absurd rfl (hskip x).2
  case call nnn => exact commutesWith_setKeys_execCall keys nnn
  case ret => exact commutesWith_setKeys_execReturn keys
  case skipEqImm x nn => exact commutesWith_setKeys_skipIf keys (c := fun s => s.reg x == nn) fun _ => rfl
  case skipNeImm x nn => exact commutesWith_setKeys_skipIf keys (c := fun s => s.reg x != nn) fun _ => rfl
  case skipEqReg x y => exact commutesWith_setKeys_skipIf keys (c := fun s => s.reg x == s.reg y) fun _ => rfl
  case skipNeReg x y => exact commutesWith_setKeys_skipIf keys (c := fun s => s.reg x != s.reg y) fun _ => rfl
  case loadFontAddr x =>
    rw [exec_loadFontAddr_eq]
    exact .indexed (fun _ => rfl) (commutesWith_setKeys_raiseIn keys _ _) fun _ _ => ⟨_, rfl, rfl⟩
  case drawSprite x y n =>
    exact .ite (c := fun s => checkReadFails s.baseAddr n.toNat) (fun _ => rfl)
      (commutesWith_setKeys_raiseIn keys (.drawSprite x y n) _) fun _ => ⟨_, rfl, rfl⟩
  case storeBCD x =>
    exact .ite (c := fun s => checkWriteFails s.cfg.writeProtectLimit s.baseAddr 3) (fun _ => rfl)
      (commutesWith_setKeys_raiseIn keys (.storeBCD x) _) fun _ => ⟨_, rfl, rfl⟩
  case copyRegisters x =>
    exact .ite (c := fun s => checkWriteFails s.cfg.writeProtectLimit s.baseAddr (x.toNat + 1)) (fun _ => rfl)
      (commutesWith_setKeys_raiseIn keys (.copyRegisters x) _) fun _ => ⟨_, rfl, rfl⟩
  case fillRegisters x =>
    exact .ite (c := fun s => checkReadFails s.baseAddr (x.toNat + 1)) (fun _ => rfl)
      (commutesWith_setKeys_raiseIn keys (.fillRegisters x) _) fun _ => ⟨_, rfl, rfl⟩
  all_goals exact fun _ => ⟨_, rfl, rfl⟩

end

/-- No instruction may write the keypad. -/
theorem keys_notMem_writtenParts (i : Instr) : Part.keys ∉ writtenParts i := by
  cases i <;> simp [writtenParts]

/-- Settles O57: every instruction but the two key skips commutes with a change of the keypad, and the keypad is in no
instruction's frame. -/
theorem keypadReadOnlyByKeySkips : Obligations.KeypadReadOnlyByKeySkips := by
  refine ⟨fun i s keys hskip => (commutesWith_setKeys_exec keys hskip).related s, fun i s t h => ?_⟩
  exact writesOnly_of_exec h .keys (by simpa using keys_notMem_writtenParts i)

end Sys2Proof.Safety
end

section
/-! Load and the reset sequence (O53, O60): a program that fits is one block move into memory, and what the reset
sequence leaves is what it laid out before Load with the program over it. -/

namespace Sys2Proof.Machine

/-! Everything Load can do (R281, R245) -/

/-- A program that fits is copied, `pc` goes to the reset vector and the core runs (R281). -/
theorem State.load_fits (s : State) {bytes : List Byte} (h : bytes.length ≤ Config.maxProgram) :
    s.load bytes = ((s.storeBytes Config.programBase bytes).setPc
      (BitVec.ofNat 16 Config.programBase)).setStatus .running := by
  rw [State.load, if_neg (Nat.not_lt.2 h)]

/-- A longer program halts the core, and that is all (R245). -/
theorem State.load_tooLarge (s : State) {bytes : List Byte} (h : bytes.length > Config.maxProgram) :
    s.load bytes = s.setStatus (.halted { kind := .programTooLarge, pc := none, word := none }) := by
  rw [State.load, if_pos h]

/-- Load keeps memory canonical: a program that fits ends inside memory (R9, R50). -/
theorem State.load_mem_wf {s : State} (bytes : List Byte) (hwf : s.mem.wf) : (s.load bytes).mem.wf := by
  by_cases h : bytes.length ≤ Config.maxProgram
  · have hend : Config.programBase + bytes.length ≤ Config.memSize := Nat.add_le_add_left h Config.programBase
    rw [s.load_fits h]
    exact Memory.writeBytes_wf bytes hend hwf
  · rw [s.load_tooLarge (Nat.not_le.1 h)]
    exact hwf

end Sys2Proof.Machine

namespace Sys2Proof.Safety

open Sys2Proof.Machine

/-- Load of a program that fits touches memory, `pc` and the status only. -/
theorem sameExcept_load (s : State) {bytes : List Byte} (h : bytes.length ≤ Config.maxProgram) :
    SameExcept [.mem, .pc, .status] s (s.load bytes) := by
  rw [s.load_fits h]
  exact ((sameExcept_storeBytes s _ bytes).append (sameExcept_setPc _ _)).append (sameExcept_setStatus _ _)

/-- Settles O60: a program that fits is one block move, read back inside its block and unseen outside; a longer one
sets the status alone. -/
theorem loadCopiesOrHalts : Obligations.LoadCopiesOrHalts := by
  refine fun s bytes => ⟨fun hfits => ⟨fun k hk => ?_, fun a ha => ?_, ?_, ?_, sameExcept_load s hfits⟩,
    s.load_tooLarge, State.load_mem_wf bytes⟩ <;> rw [s.load_fits hfits]
  · exact s.readByte_storeBytes_inside _ bytes hk
  · exact s.readByte_storeBytes_outside bytes ha
  · rfl
  · rfl

/-! The invariants where a run begins (R282) -/

/-- A core that runs at the reset vector with an empty stack meets the bound of R105. -/
theorem pcBounded_of_start {s : State} (hpc : s.pc = 0x200) (hsp : s.sp.val = 0) (hrun : s.status = .running) :
    PcBounded s := by
  refine ⟨?_, fun k _ hlive => ?_, fun x hwait => ?_⟩
  · simp [hpc]
  · simp [hsp] at hlive
  · simp [hrun] at hwait

/-- A core that runs has no error record. -/
theorem haltRecordFaithful_of_running {s : State} (hrun : s.status = .running) : HaltRecordFaithful s :=
  fun e he => by simp [hrun] at he

/-- Settles O53: Load changes memory, `pc` and the status of the state with the font, whose every byte is known, so
each piece is what the parameters gave or what Load put there. -/
theorem resetMeetsInvariants : Obligations.ResetMeetsInvariants := by
  refine ⟨fun p c bytes hfits => ?_, State.reset_mem_wf, pcBounded_of_start rfl rfl rfl,
    haltRecordFaithful_of_running rfl⟩
  obtain ⟨hload, -, hwf⟩ := loadCopiesOrHalts ((State.create p c).fontInit p) bytes
  obtain ⟨hprogram, hother, hpc, hrun, hframe⟩ := hload hfits
  have hsp : (State.boot p c bytes).sp.val = 0 := congrArg Fin.val (hframe .stack (by simp)).2
  have hfont (a : Nat) (ha : a < 80) : (State.boot p c bytes).readByte a = p.font[a] := by
    have hmem : a < Config.memSize := Nat.lt_trans ha (by decide)
    exact (hother a (.inl (by omega))).trans ((State.fontInit_readByte p c hmem).trans (dif_pos ha))
  have hfill (a : Nat) (hlo : 0x50 ≤ a) (hmem : a < 0x1000) (hout : a < 0x200 ∨ 0x200 + bytes.length ≤ a) :
      (State.boot p c bytes).readByte a = p.memFill :=
    (hother a hout).trans ((State.fontInit_readByte p c hmem).trans (dif_neg (Nat.not_lt.2 hlo)))
  exact ⟨fun d k h _ => hfont (5 * d + k) h, hprogram, hfill, hframe .v (by simp), hframe .i (by simp), hpc, hsp,
    hframe .delay (by simp), hframe .sound (by simp), hframe .fb (by simp), hrun, hframe .cfg (by simp),
    hwf (State.fontInit_mem_wf p c), pcBounded_of_start hpc hsp hrun, haltRecordFaithful_of_running hrun⟩

end Sys2Proof.Safety
end

section
/-! Decoding (O7, O8): `Strict59` matters to the two register-register skips alone, so every other instruction is
decoded from its own encoding only, whatever the parameter. -/

namespace Sys2Proof

/-! Groups 5 and 9 (R82) -/

/-- R82: the low nibble of group 5 is checked under the parameter only. -/
theorem decode_of_fieldT_five (strict : Bool) {w : Word} (hT : fieldT w = 5#4) :
    decode strict w =
      if strict && fieldN w != 0#4 then .error .group5 else .ok (.skipEqReg (fieldX w) (fieldY w)) := by
  simp only [decode, hT]

/-- R82: and so is that of group 9. -/
theorem decode_of_fieldT_nine (strict : Bool) {w : Word} (hT : fieldT w = 9#4) :
    decode strict w =
      if strict && fieldN w != 0#4 then .error .group9 else .ok (.skipNeReg (fieldX w) (fieldY w)) := by
  simp only [decode, hT]

/-- Outside groups 5 and 9 the decoder does not look at `Strict59`. -/
theorem decode_false_eq_true {w : Word} (h5 : fieldT w ≠ 5) (h9 : fieldT w ≠ 9) : decode false w = decode true w := by
  unfold decode
  split
  case h_6 hT => exact absurd hT h5
  case h_10 hT => exact absurd hT h9
  all_goals rfl

/-- A word decodes from the encoding of its instruction, or, without `Strict59`, to a register-register skip. -/
theorem encode_of_decode_or_skip {strict : Bool} {w : Word} {i : Instr} (h : decode strict w = .ok i) :
    encode i = w ∨ ∃ x y, i = .skipEqReg x y ∨ i = .skipNeReg x y := by
  cases strict with
  | true => exact .inl (encode_of_decode h)
  | false =>
    by_cases h5 : fieldT w = 5
    · rw [decode_of_fieldT_five false h5] at h
      cases h
      exact .inr ⟨_, _, .inl rfl⟩
    · by_cases h9 : fieldT w = 9
      · rw [decode_of_fieldT_nine false h9] at h
        cases h
        exact .inr ⟨_, _, .inr rfl⟩
      · exact .inl (encode_of_decode ((decode_false_eq_true h5 h9).symm.trans h))

/-- The check passes exactly a low nibble of 0 (R82). -/
theorem strict59_ok_iff {n : Nibble} {e : DecodeReject} {j : Instr} :
    (∃ i, (if true && n != 0#4 then .error e else .ok j : Except DecodeReject Instr) = .ok i) ↔ n = 0 := by
  constructor
  · rintro ⟨i, hi⟩
    exact (strict59_ok hi).1
  · rintro rfl
    exact ⟨j, rfl⟩

/-- Settles O7: in groups 5 and 9 only the check under `Strict59` looks at the low nibble, and no other group has a
check. -/
theorem lowNibbleOfGroupsFiveAndNine : Obligations.LowNibbleOfGroupsFiveAndNine := by
  intro t x y n ht
  refine ⟨?_, ?_, fun w => decode_false_eq_true⟩
  · obtain rfl | rfl := ht
    · rw [decode_of_fieldT_five true (w := wordXYN 5 x y n) (fieldT_wordXYN ..), fieldN_wordXYN]
      exact strict59_ok_iff
    · rw [decode_of_fieldT_nine true (w := wordXYN 9 x y n) (fieldT_wordXYN ..), fieldN_wordXYN]
      exact strict59_ok_iff
  · obtain rfl | rfl := ht
    · simp [decode_of_fieldT_five]
    · simp [decode_of_fieldT_nine]

/-- Settles O8: each word is the encoding of its instruction (O1). -/
theorem sampleWordsDecode : Obligations.SampleWordsDecode :=
  ⟨decode_encode true .clear, decode_encode true (.jump 0xABC), decode_encode true (.call 0x300),
    decode_encode true (.skipEqImm 3 0x42), decode_encode true (.skipNeImm 3 0x42),
    decode_encode true (.skipEqReg 1 2), decode_encode true (.setImm 0xA 0x5C), decode_encode true (.addImm 1 0xFF),
    decode_encode true (.add 0xB 0xC), decode_encode true (.skipNeReg 1 2), decode_encode true (.storeNnnInI 0xFFF),
    decode_encode true (.jumpAddV0 0x300), decode_encode true (.random 3 0x0F),
    decode_encode true (.drawSprite 7 0xA 0xF), decode_encode true (.skipIfKeyNotDown 5),
    decode_encode true (.waitKeyDownStore 3), decode_encode true (.fillRegisters 0xE)⟩

end Sys2Proof
end

section
/-! The core step and its errors (O9, O12, O52, O59): an error discards every write of its step, and its record holds
the word at `pc`, for an instruction that can raise was decoded from its own encoding. -/

namespace Sys2Proof.Machine

/-- R103: a word that was fetched and decodes is executed. -/
theorem State.coreStep_of_decode_ok {s : State} {i : Instr} (hf : s.fetchFails = false)
    (hd : decode s.cfg.strict59 (s.wordAt s.pc.toNat) = .ok i) : s.coreStep = exec i s := by
  simp only [State.coreStep, hf, hd, Bool.false_eq_true, if_false]

/-- An instruction that halts a running core has only raised, and not the error of Load (R244). -/
theorem exec_eq_raise_of_halts {i : Instr} {s t : State} {e : ErrorRecord} (hrun : s.status = .running)
    (hexec : exec i s = .next t) (he : t.status = .halted e) :
    ∃ k, k ≠ .programTooLarge ∧ t = s.raise k (some (encode i)) := by
  obtain ⟨k, hk, hraise⟩ | ⟨x, -, hwait⟩ | ⟨u, hu, hstatus, -⟩ := exec_cases i s
  · exact ⟨k, hk, next_eq (hraise.symm.trans hexec)⟩
  · obtain rfl := next_eq (hwait.symm.trans hexec)
    exact absurd he nofun
  · obtain rfl := next_eq (hu.symm.trans hexec)
    exact absurd (hrun.symm.trans (hstatus.symm.trans he)) nofun

/-- A skip keeps the status (R110). -/
@[simp] theorem State.skipIf_status (s : State) (c : Bool) : (s.skipIf c).status = s.status := by
  rw [State.skipIf_eq, State.setPc_status]

/-- An instruction that halts a running core is the one whose encoding was fetched: a register-register skip, which
alone decodes from other words too, raises nothing. -/
theorem encode_eq_wordAt_of_halts {i : Instr} {s t : State} {e : ErrorRecord} (hrun : s.status = .running)
    (hd : decode s.cfg.strict59 (s.wordAt s.pc.toNat) = .ok i) (hexec : exec i s = .next t)
    (he : t.status = .halted e) : encode i = s.wordAt s.pc.toNat := by
  obtain hword | ⟨x, y, rfl | rfl⟩ := encode_of_decode_or_skip hd
  · exact hword
  all_goals
    obtain rfl := next_eq hexec
    rw [State.skipIf_status, hrun] at he
    exact absurd he nofun

/-- The word an error of a core step records: none when the fetch fails, else the word at `pc` (R244). -/
def State.fetchedWord (s : State) : Option Word := if s.fetchFails then none else some (s.wordAt s.pc.toNat)

/-- A core step that halts has only raised, with the fetched word, and not the error of Load (R244). -/
theorem State.coreTurn_eq_raise_of_halts {s t : State} {e : ErrorRecord} (hrun : s.status = .running)
    (ht : s.coreTurn = .next t) (he : t.status = .halted e) :
    ∃ k, k ≠ .programTooLarge ∧ t = s.raise k s.fetchedWord := by
  obtain ⟨-, x, hx⟩ | ⟨-, hf, rfl⟩ | ⟨-, hf, rfl⟩ | ⟨-, hf, i, hd, hexec⟩ := State.coreTurn_next ht
  · exact absurd (hrun.symm.trans hx) nofun
  · exact ⟨.outOfBoundsAccess, by decide, by rw [State.fetchedWord, if_pos hf]⟩
  · exact ⟨.decodeFailure, by decide, by rw [State.fetchedWord, if_neg (Bool.eq_false_iff.1 hf)]⟩
  · obtain ⟨k, hk, rfl⟩ := exec_eq_raise_of_halts hrun hexec he
    refine ⟨k, hk, ?_⟩
    rw [encode_eq_wordAt_of_halts hrun hd hexec he, State.fetchedWord, if_neg (Bool.eq_false_iff.1 hf)]

end Sys2Proof.Machine

namespace Sys2Proof.Safety

open Sys2Proof.Machine

/-- What a step that answers a next state has done: a core turn or a host action, from a state that differs in the
schedule only. -/
theorem step_next_cases {s t : State} (h : step s = .next t) : ∃ q n,
    (CoreTurnNext s (s.setSchedule q n) ∧ (s.setSchedule q n).coreTurn = .next t) ∨
      t = (s.setSchedule q n).tick ∨ (∃ k, t = (s.setSchedule q n).keyPress k) ∨
      (∃ k, t = (s.setSchedule q n).keyRelease k) ∨ t = (s.setSchedule q n).abort := by
  obtain ⟨q, n, hturn⟩ := step_turn_cases s
  refine ⟨q, n, ?_⟩
  obtain ⟨hcore, hs⟩ | hs | ⟨k, hs⟩ | ⟨k, hs⟩ | hs := hturn <;> rw [hs] at h
  · exact .inl ⟨hcore, h⟩
  · exact .inr (.inl (next_eq h))
  · exact .inr (.inr (.inl ⟨k, next_eq h⟩))
  · exact .inr (.inr (.inr (.inl ⟨k, next_eq h⟩)))
  · exact .inr (.inr (.inr (.inr (next_eq h))))

/-- Settles O9: the turn is a core step, and the fetch sees the same from `s'`. -/
theorem stepRunsDecodedInstruction : Obligations.StepRunsDecodedInstruction := by
  intro s s' i h hrun hf hd
  obtain ⟨q, n, rfl, hs⟩ := h.step_eq_coreStep hrun
  exact hs.trans (State.coreStep_of_decode_ok hf hd)

/-- Settles O59: the step runs the jump (O9), which sets `pc` to what it is. -/
theorem selfLoopIsQuiescent : Obligations.SelfLoopIsQuiescent := by
  intro s s' h ⟨hrun, _, nnn, hd, htarget⟩ hf
  have hpc : s'.pc = s.pc := by
    obtain ⟨q, n, rfl⟩ := h.eq_setSchedule
    rfl
  calc
    step s = .next (s'.setPc (zextAddr nnn)) := stepRunsDecodedInstruction s s' _ h hrun hf hd
    _ = .next (s'.setPc s'.pc) := by rw [htarget, hpc]
    _ = .next s' := rfl

/-- Settles O12: the step has only raised, with the fetched word. -/
theorem errorsArePrecise : Obligations.ErrorsArePrecise := by
  intro s s' t e h hrun ht he
  obtain ⟨q, n, rfl⟩ := h.eq_setSchedule
  obtain ⟨k, -, rfl⟩ := State.coreTurn_eq_raise_of_halts (s := s.setSchedule q n) hrun (h.step_eq.symm.trans ht) he
  obtain rfl : _ = e := Status.halted.inj he
  exact ⟨rfl, rfl, rfl⟩

/-! The error record (R31) -/

/-- An error raised with the fetched word leaves a record true to the machine. -/
theorem haltRecordFaithful_raise (s : State) {k : ErrorKind} (hk : k ≠ .programTooLarge) :
    HaltRecordFaithful (s.raise k s.fetchedWord) := by
  intro e he
  obtain rfl : _ = e := Status.halted.inj he
  exact ⟨fun hload => absurd hload hk, fun _ => ⟨rfl, rfl⟩⟩

/-- A turn of the core keeps the record true: only a running core raises. -/
theorem HaltRecordFaithful.coreTurn {s t : State} (h : HaltRecordFaithful s) (ht : s.coreTurn = .next t) :
    HaltRecordFaithful t := by
  obtain ⟨hrun, -⟩ | ⟨x, -, hs⟩ | ⟨e, -, hs⟩ | ⟨-, hs⟩ := s.coreTurn_cases
  · intro e he
    obtain ⟨k, hk, rfl⟩ := State.coreTurn_eq_raise_of_halts hrun ht he
    exact haltRecordFaithful_raise s hk e he
  · obtain rfl := next_eq (hs.symm.trans ht)
    exact h
  · exact absurd (hs.symm.trans ht) nofun
  · exact absurd (hs.symm.trans ht) nofun

/-- A key press lets a waiting core run, and reaches the keypad view alone elsewhere (R214). -/
theorem HaltRecordFaithful.keyPress {s : State} (h : HaltRecordFaithful s) (k : Nibble) :
    HaltRecordFaithful (s.keyPress k) := by
  obtain ⟨x, -, he⟩ | ⟨-, he⟩ := s.keyPress_eq k <;> rw [he]
  · exact haltRecordFaithful_of_running rfl
  · exact h

/-- An abort leaves a halted core as it is (R261). -/
theorem HaltRecordFaithful.abort {s : State} (h : HaltRecordFaithful s) : HaltRecordFaithful s.abort := by
  obtain ⟨-, he⟩ | ⟨-, he⟩ := s.abort_eq <;> rw [he]
  · exact nofun
  · exact h

/-- Settles O52: a core turn that halts records what it fetched, and no host action touches a record, `pc`, memory or
the parameters of a halted core. -/
theorem stepKeepsHaltRecordFaithful : Obligations.StepKeepsHaltRecordFaithful := by
  intro s t h ht
  obtain ⟨q, n, hturn⟩ := step_next_cases ht
  have h' : HaltRecordFaithful (s.setSchedule q n) := h
  obtain ⟨-, hs⟩ | rfl | ⟨k, rfl⟩ | ⟨k, rfl⟩ | rfl := hturn
  · exact h'.coreTurn hs
  · exact h'
  · exact h'.keyPress k
  · exact h'
  · exact h'.abort

end Sys2Proof.Safety
end

section
/-! The digit, and the causes of `OutOfBoundsAccess` (O16, O38): an instruction none of whose checks fails does not
raise it. -/

namespace Sys2Proof.Machine

/-- The address of a glyph is exact (R183). -/
theorem glyphAddr_toNat (d : Nibble) : (glyphAddr d).toNat = 5 * d.toNat := by
  have hd := d.isLt
  rw [glyphAddr, fontBase, BitVec.toNat_ofNat]
  omega

/-- R183: a digit in range sets `I`. -/
theorem exec_loadFontAddr_loads {x : Nibble} {s : State} (h : (s.reg x).toNat < 16) :
    ∃ d : Nibble, d.toNat = (s.reg x).toNat ∧ exec (.loadFontAddr x) s = .next (s.setI (glyphAddr d)).advance := by
  obtain ⟨d, hd, -⟩ := State.exists_smallReg_eq_some h
  refine ⟨d, ((s.smallReg_some x d).1 hd).symm, ?_⟩
  simp only [exec_loadFontAddr_eq, hd, Option.elim_some]

end Sys2Proof.Machine

namespace Sys2Proof.Safety

open Sys2Proof.Machine

/-- Settles O38: a digit in range makes it one write of `I`; a larger one is a cause of the error (O42). -/
theorem fontAddress : Obligations.FontAddress := by
  intro x s
  refine ⟨fun hdigit => ?_, fun hlarge => exec_loadFontAddr_raises ((s.smallReg_none x).2 hlarge)⟩
  obtain ⟨d, hd, hexec⟩ := exec_loadFontAddr_loads (Nat.lt_succ_of_le hdigit)
  exact ⟨_, hexec, (glyphAddr_toNat d).trans (by rw [hd]), (sameExcept_setI s _).advanceFrame rfl⟩

/-- An instruction that raises `OutOfBoundsAccess` has one of the causes 3 to 8 of R243: with none of them it keeps
the status, waits, or raises an error of the stack. -/
theorem OutOfBoundsCause.of_exec_halts {i : Instr} {s t : State} {e : ErrorRecord} (hrun : s.status = .running)
    (hexec : exec i s = .next t) (he : t.status = .halted e) (hkind : e.kind = .outOfBoundsAccess) :
    OutOfBoundsCause s i := by
  refine Classical.byContradiction fun hnone => ?_
  have hraised : raisedKind i = .outOfBoundsAccess := (kind_eq_raisedKind_of_exec hrun hexec he).symm.trans hkind
  have hchanged {u : State} (hu : exec i s = .next u) : u.status ≠ s.status := by
    obtain rfl := next_eq (hu.symm.trans hexec)
    rw [he, hrun]
    exact nofun
  simp only [OutOfBoundsCause, not_or, not_exists, not_and, Nat.not_lt] at hnone
  obtain ⟨hdraw, hbcd, hcopy, hfill, hfont, hkey⟩ := hnone
  cases i
  case call nnn => exact absurd hraised nofun
  case ret => exact absurd hraised nofun
  case waitKeyDownStore x =>
    obtain rfl := next_eq hexec
    exact absurd he nofun
  case drawSprite x y n =>
    have hend := hdraw x y n rfl
    exact hchanged (exec_drawSprite_draws (by omega)) rfl
  case storeBCD x =>
    obtain ⟨hend, hlimit⟩ := hbcd x rfl
    exact hchanged (exec_storeBCD_stores x hend hlimit) rfl
  case copyRegisters x =>
    obtain ⟨hend, hlimit⟩ := hcopy x rfl
    exact hchanged (exec_copyRegisters_stores hend hlimit) rfl
  case fillRegisters x => exact hchanged (exec_fillRegisters_loads (hfill x rfl)) (by simp)
  case loadFontAddr x =>
    obtain ⟨d, -, hloads⟩ := exec_loadFontAddr_loads (Nat.lt_succ_of_le (hfont x rfl))
    exact hchanged hloads rfl
  case skipIfKeyDown x =>
    exact hchanged (exec_skipIfKeyDown_skips (Nat.lt_succ_of_le (hkey x (.inl rfl)))) (State.skipIf_status s _)
  case skipIfKeyNotDown x =>
    exact hchanged (exec_skipIfKeyNotDown_skips (Nat.lt_succ_of_le (hkey x (.inr rfl)))) (State.skipIf_status s _)
  case skipEqImm x nn => exact hchanged rfl (State.skipIf_status s _)
  case skipNeImm x nn => exact hchanged rfl (State.skipIf_status s _)
  case skipEqReg x y => exact hchanged rfl (State.skipIf_status s _)
  case skipNeReg x y => exact hchanged rfl (State.skipIf_status s _)
  all_goals exact hchanged rfl rfl

/-- What halts a core turn with `OutOfBoundsAccess` is the fetch or a cause of the instruction (R243). -/
theorem fetchFails_or_cause_of_coreTurn {s t : State} {e : ErrorRecord} (hrun : s.status = .running)
    (ht : s.coreTurn = .next t) (he : t.status = .halted e) (hkind : e.kind = .outOfBoundsAccess) :
    s.fetchFails = true ∨ ∃ i, decode s.cfg.strict59 (s.wordAt s.pc.toNat) = .ok i ∧ OutOfBoundsCause s i := by
  obtain ⟨-, x, hx⟩ | ⟨-, hf, -⟩ | ⟨-, -, rfl⟩ | ⟨-, -, i, hd, hexec⟩ := State.coreTurn_next ht
  · exact absurd (hrun.symm.trans hx) nofun
  · exact .inl hf
  · obtain rfl : _ = e := Status.halted.inj he
    exact absurd hkind nofun
  · exact .inr ⟨i, hd, .of_exec_halts hrun hexec he hkind⟩

/-- The fetch, or a cause of the instruction, halts a core step with `OutOfBoundsAccess` (R243). -/
theorem coreStep_raises_of_fetchFails_or_cause {s : State}
    (h : s.fetchFails = true ∨ ∃ i, decode s.cfg.strict59 (s.wordAt s.pc.toNat) = .ok i ∧ OutOfBoundsCause s i) :
    ∃ w, s.coreStep = .next (s.raise .outOfBoundsAccess w) := by
  cases hf : s.fetchFails with
  | true => exact ⟨none, State.coreStep_of_fetchFails hf⟩
  | false =>
    obtain ⟨i, hd, hcause⟩ := h.resolve_left (by simp [hf])
    exact ⟨some (encode i), (State.coreStep_of_decode_ok hf hd).trans hcause.exec_eq_raiseIn⟩

/-- Settles O16: causes 1 and 2 are those of a failed fetch, and the others are the instruction's. -/
theorem outOfBoundsCauses : Obligations.OutOfBoundsCauses := by
  intro s s' h hrun
  rw [← or_assoc, ← s.fetchFails_iff]
  obtain ⟨q, n, rfl, hs⟩ := h.step_eq_coreStep hrun
  constructor
  · rintro ⟨t, e, ht, he, hkind⟩
    exact fetchFails_or_cause_of_coreTurn (s := s.setSchedule q n) hrun (h.step_eq.symm.trans ht) he hkind
  · intro hcause
    obtain ⟨w, hraise⟩ := coreStep_raises_of_fetchFails_or_cause (s := s.setSchedule q n) hcause
    exact ⟨_, _, hs.trans hraise, rfl, rfl⟩

end Sys2Proof.Safety
end

section
/-! Memory and the timers over every step (O50, O54, O55): a step either runs an instruction or is quiet, and what an
instruction can do to memory, the parameters and the timers is said once for all of them. -/

namespace Sys2Proof.Safety

open Sys2Proof.Machine

/-- The step runs the instruction `i`: a core turn of a running core that decodes to it. -/
def RunsInstr (i : Instr) (s t : State) : Prop :=
  s.status = .running ∧ decode s.cfg.strict59 (s.wordAt s.pc.toNat) = .ok i ∧
    ∃ q n, CoreTurnNext s (s.setSchedule q n) ∧ exec i (s.setSchedule q n) = .next t

/-- Memory and the parameters stay, and no timer rises. -/
structure Quiet (s t : State) : Prop where
  mem : t.mem = s.mem
  cfg : t.cfg = s.cfg
  delay : t.delay.toNat ≤ s.delay.toNat
  sound : t.sound.toNat ≤ s.sound.toNat

/-- What touches none of the four is quiet. -/
theorem Quiet.of_eq {s t : State} (hmem : t.mem = s.mem := by rfl) (hcfg : t.cfg = s.cfg := by rfl)
    (hdelay : t.delay = s.delay := by rfl) (hsound : t.sound = s.sound := by rfl) : Quiet s t :=
  ⟨hmem, hcfg, Nat.le_of_eq (congrArg BitVec.toNat hdelay), Nat.le_of_eq (congrArg BitVec.toNat hsound)⟩

/-- A tick only takes from the timers (R251). -/
theorem quiet_tick (s : State) : Quiet s s.tick where
  mem := rfl
  cfg := rfl
  delay := by simp [tickTimer_toNat]
  sound := by simp [tickTimer_toNat]

/-- A key press reaches the keypad view, and a waiting core's register, `pc` and status (R214). -/
theorem quiet_keyPress (s : State) (k : Nibble) : Quiet s (s.keyPress k) := by
  obtain ⟨x, -, he⟩ | ⟨-, he⟩ := s.keyPress_eq k <;> rw [he] <;> exact .of_eq

/-- An abort reaches the status alone (R261). -/
theorem quiet_abort (s : State) : Quiet s s.abort := by
  obtain ⟨-, he⟩ | ⟨-, he⟩ := s.abort_eq <;> rw [he] <;> exact .of_eq

/-- Taking a turn off the schedule adds nothing. -/
theorem Quiet.of_setSchedule {s t : State} {q : List Turn} {n : Nat} (h : Quiet (s.setSchedule q n) t) : Quiet s t :=
  ⟨h.mem, h.cfg, h.delay, h.sound⟩

/-- Every step runs an instruction or is quiet: a wait, a failed fetch or decode, or a host action. -/
theorem step_runsInstr_or_quiet {s t : State} (h : step s = .next t) : (∃ i, RunsInstr i s t) ∨ Quiet s t := by
  obtain ⟨q, n, ⟨hcore, ht⟩ | rfl | ⟨k, rfl⟩ | ⟨k, rfl⟩ | rfl⟩ := step_next_cases h
  · obtain ⟨rfl, -⟩ | ⟨-, -, rfl⟩ | ⟨-, -, rfl⟩ | ⟨hrun, -, i, hd, hexec⟩ := State.coreTurn_next ht
    · exact .inr .of_eq
    · exact .inr .of_eq
    · exact .inr .of_eq
    · exact .inl ⟨i, hrun, hd, q, n, hcore, hexec⟩
  · exact .inr (quiet_tick _).of_setSchedule
  · exact .inr (quiet_keyPress _ k).of_setSchedule
  · exact .inr .of_eq
  · exact .inr (quiet_abort _).of_setSchedule

/-! Memory (R50, R58) -/

/-- A store lies inside the address space, so it keeps the canonical form. -/
theorem exec_mem_wf {i : Instr} {s t : State} (hwf : s.mem.wf) (h : exec i s = .next t) : t.mem.wf := by
  obtain hmem | ⟨bs, hmem, hend, -⟩ := exec_mem h <;> rw [hmem]
  · exact hwf
  · exact Memory.writeBytes_wf bs hend hwf

/-- A store begins at or above the limit, so it leaves the bytes below alone. -/
theorem exec_readByte_of_protected {i : Instr} {s t : State} {a : Nat} (ha : a < s.cfg.writeProtectLimit)
    (h : exec i s = .next t) : t.readByte a = s.readByte a := by
  obtain hmem | ⟨bs, hmem, -, hlimit, -⟩ := exec_mem h <;> rw [State.readByte, hmem]
  · rfl
  · exact Memory.read_writeBytes_outside bs s.mem (.inl (Nat.lt_of_lt_of_le ha hlimit))

/-- Settles O50: only an instruction's store writes memory, and it keeps the canonical form. -/
theorem stepKeepsMemoryCanonical : Obligations.StepKeepsMemoryCanonical := by
  intro s t hwf h
  obtain ⟨i, -, -, q, n, -, hexec⟩ | hquiet := step_runsInstr_or_quiet h
  · exact exec_mem_wf (s := s.setSchedule q n) hwf hexec
  · rw [hquiet.mem]
    exact hwf

/-- Settles O54: only an instruction's store writes memory, and it begins at or above the limit. -/
theorem protectedMemoryNeverChanges : Obligations.ProtectedMemoryNeverChanges := by
  intro s t a ha h
  obtain ⟨i, -, -, q, n, -, hexec⟩ | hquiet := step_runsInstr_or_quiet h
  · have hcfg : t.cfg = s.cfg := writesOnly_of_exec hexec .cfg (by cases i <;> simp [writtenParts])
    exact ⟨exec_readByte_of_protected (s := s.setSchedule q n) ha hexec, hcfg⟩
  · exact ⟨congrArg (Memory.read · a) hquiet.mem, hquiet.cfg⟩

/-! The timers (R28) -/

theorem delay_mem_writtenParts_iff (i : Instr) : Part.delay ∈ writtenParts i ↔ ∃ x, i = .setDelay x := by
  cases i <;> simp [writtenParts]

theorem sound_mem_writtenParts_iff (i : Instr) : Part.sound ∈ writtenParts i ↔ ∃ x, i = .setSound x := by
  cases i <;> simp [writtenParts]

/-- Only `SetDelay` writes the delay timer. -/
theorem exec_delay_eq {i : Instr} {s t : State} (hset : ¬ ∃ x, i = .setDelay x) (h : exec i s = .next t) :
    t.delay = s.delay :=
  writesOnly_of_exec h .delay (by simpa using mt (delay_mem_writtenParts_iff i).1 hset)

/-- Only `SetSound` writes the sound timer. -/
theorem exec_sound_eq {i : Instr} {s t : State} (hset : ¬ ∃ x, i = .setSound x) (h : exec i s = .next t) :
    t.sound = s.sound :=
  writesOnly_of_exec h .sound (by simpa using mt (sound_mem_writtenParts_iff i).1 hset)

/-- Settles O55: a quiet step raises no timer, and an instruction that changes one sets it. -/
theorem timersRiseOnlyWhenSet : Obligations.TimersRiseOnlyWhenSet := by
  intro s t h
  obtain ⟨i, hrun, hd, q, n, hcore, hexec⟩ | hquiet := step_runsInstr_or_quiet h
  · refine ⟨fun hrise => ?_, fun hrise => ?_⟩
    · obtain ⟨x, rfl⟩ : ∃ x, i = .setDelay x := Classical.byContradiction fun hset =>
        Nat.ne_of_gt hrise (congrArg BitVec.toNat (exec_delay_eq (s := s.setSchedule q n) hset hexec))
      exact ⟨_, x, hcore, hrun, hd⟩
    · obtain ⟨x, rfl⟩ : ∃ x, i = .setSound x := Classical.byContradiction fun hset =>
        Nat.ne_of_gt hrise (congrArg BitVec.toNat (exec_sound_eq (s := s.setSchedule q n) hset hexec))
      exact ⟨_, x, hcore, hrun, hd⟩
  · exact ⟨fun hrise => absurd hquiet.delay (Nat.not_le.2 hrise),
      fun hrise => absurd hquiet.sound (Nat.not_le.2 hrise)⟩

/-! No instruction reads the sound timer (R34) -/

section
variable (b : Byte)

/-- Raising an error (R244). -/
theorem commutesWith_setSound_raiseIn (i : Instr) (k : ErrorKind) : CommutesWith (·.setSound b) (raiseIn i k) :=
  fun _ => ⟨_, rfl, rfl⟩

/-- A skip on a condition that does not read it (R110). -/
theorem commutesWith_setSound_skipIf {c : State → Bool} (hc : ∀ s, c (s.setSound b) = c s) :
    CommutesWith (·.setSound b) fun s => .next (s.skipIf (c s)) := by
  intro s
  simp only [State.skipIf_eq, hc]
  exact ⟨_, rfl, rfl⟩

/-- `Call` (R107). -/
theorem commutesWith_setSound_execCall (nnn : Addr12) : CommutesWith (·.setSound b) (execCall nnn) := by
  intro s
  by_cases room : s.sp.val < 16
  · exact ⟨_, execCall_room room, execCall_room (s := s.setSound b) room⟩
  · exact ⟨_, execCall_full room, execCall_full (s := s.setSound b) room⟩

/-- `Return` (R108). -/
theorem commutesWith_setSound_execReturn : CommutesWith (·.setSound b) execReturn := by
  intro s
  cases hsp : s.sp.val with
  | zero => exact ⟨_, execReturn_empty hsp, execReturn_empty (s := s.setSound b) hsp⟩
  | succ k =>
    have hk : k < 16 := by omega
    exact ⟨_, execReturn_pop hsp hk, execReturn_pop (s := s.setSound b) hsp hk⟩

/-- Every instruction but `SetSound`, which writes it. -/
theorem commutesWith_setSound_exec {i : Instr} (hset : ∀ x, i ≠ .setSound x) :
    CommutesWith (·.setSound b) (exec i) := by
  cases i
  case setSound x => exact absurd rfl (hset x)
  case call nnn => exact commutesWith_setSound_execCall b nnn
  case ret => exact commutesWith_setSound_execReturn b
  case skipEqImm x nn => exact commutesWith_setSound_skipIf b (c := fun s => s.reg x == nn) fun _ => rfl
  case skipNeImm x nn => exact commutesWith_setSound_skipIf b (c := fun s => s.reg x != nn) fun _ => rfl
  case skipEqReg x y => exact commutesWith_setSound_skipIf b (c := fun s => s.reg x == s.reg y) fun _ => rfl
  case skipNeReg x y => exact commutesWith_setSound_skipIf b (c := fun s => s.reg x != s.reg y) fun _ => rfl
  case skipIfKeyDown x =>
    rw [exec_skipIfKeyDown_eq]
    exact .indexed (fun _ => rfl) (commutesWith_setSound_raiseIn b _ _)
      fun k => commutesWith_setSound_skipIf b (c := (·.keyDown k)) fun _ => rfl
  case skipIfKeyNotDown x =>
    rw [exec_skipIfKeyNotDown_eq]
    exact .indexed (fun _ => rfl) (commutesWith_setSound_raiseIn b _ _)
      fun k => commutesWith_setSound_skipIf b (c := fun s => !s.keyDown k) fun _ => rfl
  case loadFontAddr x =>
    rw [exec_loadFontAddr_eq]
    exact .indexed (fun _ => rfl) (commutesWith_setSound_raiseIn b _ _) fun _ _ => ⟨_, rfl, rfl⟩
  case drawSprite x y n =>
    exact .ite (c := fun s => checkReadFails s.baseAddr n.toNat) (fun _ => rfl)
      (commutesWith_setSound_raiseIn b (.drawSprite x y n) _) fun _ => ⟨_, rfl, rfl⟩
  case storeBCD x =>
    exact .ite (c := fun s => checkWriteFails s.cfg.writeProtectLimit s.baseAddr 3) (fun _ => rfl)
      (commutesWith_setSound_raiseIn b (.storeBCD x) _) fun _ => ⟨_, rfl, rfl⟩
  case copyRegisters x =>
    exact .ite (c := fun s => checkWriteFails s.cfg.writeProtectLimit s.baseAddr (x.toNat + 1)) (fun _ => rfl)
      (commutesWith_setSound_raiseIn b (.copyRegisters x) _) fun _ => ⟨_, rfl, rfl⟩
  case fillRegisters x =>
    exact .ite (c := fun s => checkReadFails s.baseAddr (x.toNat + 1)) (fun _ => rfl)
      (commutesWith_setSound_raiseIn b (.fillRegisters x) _) fun _ => ⟨_, rfl, rfl⟩
  all_goals exact fun _ => ⟨_, rfl, rfl⟩

end

/-- Settles O58: `SetSound` overwrites the timer, and every other instruction commutes with its replacement and does
not write it. -/
theorem soundTimerReadByNoInstruction : Obligations.SoundTimerReadByNoInstruction := by
  intro i s b
  by_cases hset : ∃ x, i = .setSound x
  · obtain ⟨x, rfl⟩ := hset
    exact .inl ⟨_, _, rfl, rfl, rfl, fun _ => rfl, fun hother => absurd rfl (hother x)⟩
  · obtain ⟨t, ht, htb⟩ := commutesWith_setSound_exec b (fun x e => hset ⟨x, e⟩) s
    exact .inl ⟨t, t.setSound b, ht, htb, rfl, fun h => absurd h hset, fun _ => ⟨rfl, exec_sound_eq hset ht⟩⟩

end Sys2Proof.Safety
end

section
/-! The general registers (O25, O30, O31, O34): one-register writes and their results, the empty sprite, and which
instructions can change `VF`. -/

namespace Sys2Proof.Machine

/-! Flag values (R23) -/

theorem flagByte_eq_zero_or_one (b : Bool) : flagByte b = 0 ∨ flagByte b = 1 := by
  cases b
  · exact .inl rfl
  · exact .inr rfl

theorem byte_eq_zero_or_one {b : Byte} (h : b.toNat < 2) : b = 0 ∨ b = 1 := by
  bv_omega

theorem shiftedOutRight_eq_zero_or_one (b : Byte) : shiftedOutRight b = 0 ∨ shiftedOutRight b = 1 := by
  refine byte_eq_zero_or_one ?_
  rw [shiftedOutRight_toNat]
  omega

theorem shiftedOutLeft_eq_zero_or_one (b : Byte) : shiftedOutLeft b = 0 ∨ shiftedOutLeft b = 1 := by
  have hb := b.isLt
  refine byte_eq_zero_or_one ?_
  rw [shiftedOutLeft_toNat]
  omega

/-! Which register a write changed -/

theorem State.eq_of_setReg_reg_ne {s : State} {x r : Nibble} {b : Byte} (h : (s.setReg x b).reg r ≠ s.reg r) :
    r = x := Decidable.byContradiction fun hne => h (s.setReg_reg_other b hne)

theorem State.le_of_loadRegs_reg_ne {s : State} {x r : Nibble} {a : Nat} (h : (s.loadRegs x a).reg r ≠ s.reg r) :
    r.toNat ≤ x.toNat :=
  Decidable.byContradiction fun hlt => h (by rw [State.loadRegs_reg, if_neg hlt])

end Sys2Proof.Machine

namespace Sys2Proof.Safety

open Sys2Proof.Machine

/-- Settles O25: each of the three is one register write. -/
theorem immediateAndMoveResults : Obligations.ImmediateAndMoveResults := by
  intro x y nn s
  refine ⟨⟨_, rfl, s.setReg_reg_same x nn, registerFrame_setReg_advance s x _⟩,
    ⟨_, rfl, ?_, registerFrame_setReg_advance s x _⟩,
    ⟨_, rfl, s.setReg_reg_same x (s.reg y), registerFrame_setReg_advance s x _⟩⟩
  rw [State.advance_reg, State.setReg_reg_same, BitVec.toNat_add]

/-- Settles O30: the drawn byte is masked into one register, and the draw is counted. -/
theorem randomIsMaskedDraw : Obligations.RandomIsMaskedDraw := by
  intro x nn s
  refine ⟨_, rfl, fun k _ => ?_, rfl, rfl, fun r hr => s.setReg_reg_other _ hr, ?_⟩
  · rw [State.advance_reg, State.drawn_reg, State.setReg_reg_same, BitVec.getLsbD_and]
    rfl
  · exact (((sameExcept_setReg s x _).append (sameExcept_drawn _)).append (sameExcept_advance _)).mono (by simp)

/-- Settles O34: a sprite of no rows leaves the framebuffer it started from and no collision. -/
theorem emptySpriteDrawsNothing : Obligations.EmptySpriteDrawsNothing := fun _ _ s =>
  ⟨(s.setReg regVF 0).advance, exec_drawSprite_draws (.inl rfl), s.setReg_reg_same regVF 0,
    registerFrame_setReg_advance s regVF 0⟩

/-! The writers of `VF` (R23) -/

/-- One of the six instructions that write a flag. -/
def IsFlagWriter (i : Instr) : Prop :=
  ∃ x y n, i = .add x y ∨ i = .sub x y ∨ i = .reverseSub x y ∨ i = .shiftRight x y ∨ i = .shiftLeft x y ∨
    i = .drawSprite x y n

/-- An instruction with `VF` as its destination. -/
def WritesVF (i : Instr) : Prop :=
  ∃ y nn, i = .setImm regVF nn ∨ i = .addImm regVF nn ∨ i = .assign regVF y ∨ i = .or regVF y ∨ i = .and regVF y ∨
    i = .xor regVF y ∨ i = .random regVF nn ∨ i = .loadDelay regVF ∨ i = .fillRegisters regVF

/-- Only an instruction that may write a general register changes one. -/
theorem v_mem_writtenParts_of_exec {i : Instr} {s t : State} {r : Nibble} (h : exec i s = .next t)
    (hne : t.reg r ≠ s.reg r) : Part.v ∈ writtenParts i := by
  refine Decidable.byContradiction fun hnot => hne ?_
  exact writesOnly_of_exec h .v (by simpa using hnot) r

/-- A block load that changes `VF` loads all sixteen registers. -/
theorem eq_regVF_of_fillRegisters {x : Nibble} {s t : State} (h : exec (.fillRegisters x) s = .next t)
    (hne : t.reg regVF ≠ s.reg regVF) : x = regVF := by
  by_cases hend : s.i.toNat + x.toNat ≤ 0xFFF
  · obtain rfl := next_eq ((exec_fillRegisters_loads hend).symm.trans h)
    rw [State.advance_reg, State.bumpI_reg] at hne
    have hle : regVF.toNat ≤ x.toNat := State.le_of_loadRegs_reg_ne hne
    have hx := x.isLt
    exact BitVec.eq_of_toNat_eq (Nat.le_antisymm (Nat.le_of_lt_succ hx) hle)
  · have hfails : checkReadFails s.i.toNat (x.toNat + 1) = true := (checkReadFails_iff _ _).2 (by omega)
    obtain rfl := next_eq ((exec_fillRegisters_raises hfails).symm.trans h)
    exact absurd rfl hne

/-- An instruction that changes `VF` writes a flag or has `VF` as its destination. -/
theorem flagWriter_or_writesVF_of_exec {i : Instr} {s t : State} (h : exec i s = .next t)
    (hne : t.reg regVF ≠ s.reg regVF) : IsFlagWriter i ∨ WritesVF i := by
  have hv := v_mem_writtenParts_of_exec h hne
  cases i with
  | add x y | sub x y | reverseSub x y | shiftRight x y | shiftLeft x y => exact .inl ⟨x, y, 0, by simp⟩
  | drawSprite x y n => exact .inl ⟨x, y, n, by simp⟩
  | setImm x nn | addImm x nn | random x nn =>
    obtain rfl := next_eq h
    obtain rfl : regVF = x := State.eq_of_setReg_reg_ne hne
    exact .inr ⟨0, nn, by simp⟩
  | assign x y | or x y | and x y | xor x y =>
    obtain rfl := next_eq h
    obtain rfl : regVF = x := State.eq_of_setReg_reg_ne hne
    exact .inr ⟨y, 0, by simp⟩
  | loadDelay x =>
    obtain rfl := next_eq h
    obtain rfl : regVF = x := State.eq_of_setReg_reg_ne hne
    exact .inr ⟨0, 0, by simp⟩
  | fillRegisters x =>
    obtain rfl := eq_regVF_of_fillRegisters h hne
    exact .inr ⟨0, 0, by simp⟩
  | _ => simp [writtenParts] at hv

/-- What a flag writer of the ALU leaves in `VF` is its flag, the last write. -/
theorem reg_regVF_of_exec {i : Instr} {x : Nibble} {b f : Byte} {s t : State} (h : exec i s = .next t)
    (hexec : exec i s = .next (s.setRegFlag x b f).advance) (hf : f = 0 ∨ f = 1) :
    t.reg regVF = 0 ∨ t.reg regVF = 1 := by
  obtain ⟨u, hu, -, hflag, -⟩ := exec_flagWriter hexec
  obtain rfl := next_eq (hu.symm.trans h)
  rwa [hflag]

/-- Settles O31: a change of `VF` is a flag or a destination, and a flag is 0 or 1. -/
theorem flagWriters : Obligations.FlagWriters := by
  refine fun i s t h => ⟨flagWriter_or_writesVF_of_exec h, ?_⟩
  rintro ⟨x, y, n, rfl | rfl | rfl | rfl | rfl | ⟨rfl, hpc⟩⟩
  · exact reg_regVF_of_exec h rfl (flagByte_eq_zero_or_one _)
  · exact reg_regVF_of_exec h rfl (flagByte_eq_zero_or_one _)
  · exact reg_regVF_of_exec h rfl (flagByte_eq_zero_or_one _)
  · exact reg_regVF_of_exec h rfl (shiftedOutRight_eq_zero_or_one _)
  · exact reg_regVF_of_exec h rfl (shiftedOutLeft_eq_zero_or_one _)
  · obtain rfl := next_eq ((exec_drawSprite_draws (sprite_inMemory_of_advanced h hpc)).symm.trans h)
    rw [State.advance_reg, State.setReg_reg_same]
    exact flagByte_eq_zero_or_one _

end Sys2Proof.Safety
end

section
/-! The register skips, the key wait and the abort (O23, O45, O46, O48). -/

namespace Sys2Proof.Safety

open Sys2Proof.Machine

/-- Settles O23: each is a skip on its condition, or on the negation. -/
theorem registerSkips : Obligations.RegisterSkips := by
  intro x y nn s
  refine ⟨⟨_, rfl, sameExcept_skipIf s _, ?_⟩, ⟨_, rfl, sameExcept_skipIf s _, ?_⟩,
    ⟨_, rfl, sameExcept_skipIf s _, ?_⟩, ⟨_, rfl, sameExcept_skipIf s _, ?_⟩⟩
  · simp
  · simp
  · simp
  · simp

/-- Settles O45: the wait is one write of the status. -/
theorem waitKeyBegins : Obligations.WaitKeyBegins := fun x s =>
  ⟨_, rfl, rfl, rfl, sameExcept_setStatus s (.waitKey x)⟩

/-- Whatever the status, a key press lets its key go down and no other key change (R214). -/
theorem keyPress_keyDown (s : State) (k j : Nibble) : (s.keyPress k).keyDown j = if j = k then true else s.keyDown j := by
  obtain ⟨x, -, he⟩ | ⟨-, he⟩ := s.keyPress_eq k <;> rw [he] <;> exact s.setKey_keyDown k j true

/-- A key press in `WaitKey(x)` completes the wait (R214). -/
theorem keyPress_of_waitKey {s : State} {x : Nibble} (hx : s.status = .waitKey x) (k : Nibble) :
    s.keyPress k = (((s.setKey k true).setReg x (k.zeroExtend 8)).advance).setStatus .running := by
  simp only [State.keyPress, hx]

/-- A key press in any other status reaches the keypad view alone (R214). -/
theorem keyPress_of_not_waitKey {s : State} (hx : ∀ x, s.status ≠ .waitKey x) (k : Nibble) :
    s.keyPress k = s.setKey k true := by
  obtain ⟨x, h, -⟩ | ⟨-, he⟩ := s.keyPress_eq k
  · exact absurd h (hx x)
  · exact he

/-- Settles O46: in a wait the press is four writes, and elsewhere that of the key. -/
theorem keyPressCompletesWait : Obligations.KeyPressCompletesWait := by
  intro k s s' h
  obtain ⟨q, n, rfl⟩ := h.eq_setSchedule
  refine ⟨_, h.step_eq, (keyPress_keyDown _ k k).trans (if_pos rfl),
    fun j hj => (keyPress_keyDown _ k j).trans (if_neg hj), fun x hx => ?_, fun hx => ?_⟩
  · have hpress := keyPress_of_waitKey (s := s.setSchedule q n) hx k
    rw [hpress]
    refine ⟨rfl, ?_, rfl, fun r hr => State.setReg_reg_other _ _ hr, ?_⟩
    · exact (congrArg BitVec.toNat (State.setReg_reg_same _ x _)).trans (BitVec.toNat_setWidth_of_le (by decide))
    · exact ((((sameExcept_setKey _ k true).append (sameExcept_setReg _ x _)).append (sameExcept_advance _)).append
        (sameExcept_setStatus _ _)).mono (by simp)
  · rw [keyPress_of_not_waitKey (s := s.setSchedule q n) hx k]
    exact sameExcept_setKey _ k true

/-- An abort touches the status only (R261). -/
theorem sameExcept_abort (s : State) : SameExcept [.status] s s.abort := by
  obtain ⟨-, he⟩ | ⟨-, he⟩ := s.abort_eq <;> rw [he]
  · exact sameExcept_setStatus s .stopped
  · exact .refl _ s

/-- An abort stops a core that runs or waits (R261). -/
theorem abort_status_of_live {s : State} (h : s.status = .running ∨ ∃ x, s.status = .waitKey x) :
    s.abort.status = .stopped := by
  obtain hrun | ⟨x, hx⟩ := h <;> simp [State.abort, *]

/-- Settles O48: the abort is enabled where the core runs or waits, and nowhere else. -/
theorem abortStopsTheCore : Obligations.AbortStopsTheCore := by
  intro s s' h
  obtain ⟨q, n, rfl⟩ := h.eq_setSchedule
  refine ⟨_, h.step_eq, sameExcept_abort _, fun hlive => abort_status_of_live (s := s.setSchedule q n) hlive,
    fun hterm => ?_⟩
  rw [abort_eq_of_terminal (s := s.setSchedule q n) hterm.symm]
  rfl

end Sys2Proof.Safety
end
